-- ==== Sys2Proof/Word.lean ====
section
/-! DEFINITION. The word types of the SUNDAE engine (00_scope.md R9). -/

namespace Sys2Proof

/-- R9: an 8-bit unsigned value. -/
abbrev Byte := BitVec 8

/-- R9: a 32-bit unsigned value, the width of every register of the window and of a command. -/
abbrev Word := BitVec 32

/-- R9, R10: a block of sixteen bytes, held as its R10 integer: byte 0 is the most significant
byte (bits 127..120), byte 15 the least significant (bits 7..0). `Machine/Blocks.lean` reads its
bytes (log entry 6). -/
abbrev Block := BitVec 128

end Sys2Proof
end

