-- ==== Sys2Proof/Config.lean ====
section
/-! DEFINITION. The parameters of the spec (00_scope.md R5, R7), each an opaque constant: no proof can
read a value of it, so a claim holds for every value. -/

namespace Sys2Proof

/-- R5, D25: the block cipher's forward direction under the loaded key, a total function fixed for
the whole run. Nothing else is assumed of it (log entry 7). -/
opaque Config.E : Block → Block

/-- R7, R50, D38: the bus address at which the 256-byte register window starts (log entry 8). -/
opaque Config.BASE : Nat

end Sys2Proof
end

