-- ==== Sys2Proof/Syntax.lean ====
section
/-! DEFINITION. The seven commands of opcode_table.json and their operands (30_encoding.md R80 to R83). -/

namespace Sys2Proof

/-- R80, field SEG: the segment an ABS absorbs. -/
inductive Segment where
  /-- SEG = 0, associated data. -/
  | ad
  /-- SEG = 1, plaintext. -/
  | pt
  deriving DecidableEq, Repr

/-- R80, field SRC: where KSEED takes its seed from. -/
inductive SeedSource where
  /-- SRC = 0, the tag V. -/
  | tag
  /-- SRC = 1, the TAGIN snapshot. -/
  | tagin
  deriving DecidableEq, Repr

/-- R83: one constructor per row of opcode_table.json. `len` is LEN, the byte count R of R81; it is
not checked here: R84's check is made when the command executes (R86). -/
inductive Instr where
  /-- INIT (R110): start an absorption. -/
  | init (adp ptp : Bool)
  /-- ABS (R111): absorb one block of the current segment. -/
  | abs (seg : Segment) (fin : Bool) (len : Nat)
  /-- KSEED (R132): load the keystream register. -/
  | kseed (src : SeedSource)
  /-- KS (R133): one keystream block, applied to DIN. -/
  | ks (fin : Bool) (len : Nat)
  /-- KSABS (R134): KS, then the result absorbed as a plaintext block. -/
  | ksabs (fin : Bool) (len : Nat)
  /-- VERIFY (R150): compare the tag with the supplied tag. -/
  | verify
  /-- CLEAR (R151): zeroise the block. -/
  | clear
  deriving DecidableEq, Repr

end Sys2Proof
end

