-- ==== Sys2Proof/WellFormed.lean ====
section
/-! DEFINITION. When a command can be written as a command word: its length fits the field LEN (R80). -/

namespace Sys2Proof

/-- R80: LEN is five bits wide (w[8:4]), so a length from 0 to 31 has an encoding. A length the field
holds and R84 forbids is well formed: R87 has the assembler encode it as written. -/
def lenEncodable (len : Nat) : Bool := decide (len < 32)

/-- The command has a command word. -/
def Instr.wellFormed : Instr → Bool
  | .init _ _ => true
  | .abs _ _ len => lenEncodable len
  | .kseed _ => true
  | .ks _ len => lenEncodable len
  | .ksabs _ len => lenEncodable len
  | .verify => true
  | .clear => true

end Sys2Proof
end

