-- ==== Sys2Proof/Decode.lean ====
section
/-! DEFINITION. The decoder of command words, total and rejecting by name (30_encoding.md R80 to R86), and
the encoder beside it (R87). -/

namespace Sys2Proof

/-- Why a word selects no command. R186 gives every one of these the cause ILLEGAL. -/
inductive DecodeError where
  /-- R85: opcode 0x0 or 0x8 to 0xF. -/
  | reservedOpcode
  /-- R82, R85: a nonzero bit outside the fields of the word's opcode (OP 0x7 has no field but OP). -/
  | strayBit
  deriving DecidableEq, Repr

/-- R81: OP = w[3:0]. -/
def fieldOp (w : Word) : BitVec 4 := w.extractLsb' 0 4

/-- R81: R = zext(w[8:4]). -/
def fieldLen (w : Word) : Nat := (w.extractLsb' 4 5).toNat

/-- R81: FIN = w[9]. -/
def fieldFin (w : Word) : Bool := w.getLsbD 9

/-- R81: SEG = w[10]: 0 associated data, 1 plaintext (R80). -/
def fieldSeg (w : Word) : Segment := if w.getLsbD 10 then .pt else .ad

/-- R81: ADP = w[11]. -/
def fieldAdp (w : Word) : Bool := w.getLsbD 11

/-- R81: PTP = w[12]. -/
def fieldPtp (w : Word) : Bool := w.getLsbD 12

/-- R81: SRC = w[13]: 0 the tag, 1 TAGIN (R80). -/
def fieldSrc (w : Word) : SeedSource := if w.getLsbD 13 then .tagin else .tag

/-- R82: one row of the mask table. -/
structure OpRow where
  op : Word
  mask : Word
  deriving DecidableEq, Repr

/-- R82, row 0x1. -/
def rowInit : OpRow := ⟨0x1, 0xFFFFE7FF⟩
/-- R82, row 0x2. -/
def rowAbs : OpRow := ⟨0x2, 0xFFFFF80F⟩
/-- R82, row 0x3. -/
def rowKseed : OpRow := ⟨0x3, 0xFFFFDFFF⟩
/-- R82, row 0x4. -/
def rowKs : OpRow := ⟨0x4, 0xFFFFFC0F⟩
/-- R82, row 0x5. -/
def rowKsabs : OpRow := ⟨0x5, 0xFFFFFC0F⟩
/-- R82, row 0x6. -/
def rowVerify : OpRow := ⟨0x6, 0xFFFFFFFF⟩
/-- R82, row 0x7. -/
def rowClear : OpRow := ⟨0x7, 0xFFFFFFFF⟩

/-- R82: the mask table. -/
def opTable : List OpRow := [rowInit, rowAbs, rowKseed, rowKs, rowKsabs, rowVerify, rowClear]

/-- R82: a word `w` selects command `c` when `(w AND mask_c) = OP_c`. -/
def OpRow.selectedBy (r : OpRow) (w : Word) : Bool := w &&& r.mask == r.op

/-- R82, R85: the command `i` if the word has no bit outside the row's fields. -/
def OpRow.accept (r : OpRow) (w : Word) (i : Instr) : Except DecodeError Instr :=
  if r.selectedBy w then .ok i else .error .strayBit

/-- R82, R83, R85, R86: every word is one command or one named error. -/
def decode (w : Word) : Except DecodeError Instr :=
  match (fieldOp w).toNat with
  | 1 => rowInit.accept w (.init (fieldAdp w) (fieldPtp w))
  | 2 => rowAbs.accept w (.abs (fieldSeg w) (fieldFin w) (fieldLen w))
  | 3 => rowKseed.accept w (.kseed (fieldSrc w))
  | 4 => rowKs.accept w (.ks (fieldFin w) (fieldLen w))
  | 5 => rowKsabs.accept w (.ksabs (fieldFin w) (fieldLen w))
  | 6 => rowVerify.accept w .verify
  | 7 => rowClear.accept w .clear
  | _ => .error .reservedOpcode

/-- The word whose only bits are `v` placed at bit `at` (R87's `v<<at`). -/
def placed (v : Word) (at' : Nat) : Word := v <<< at'

/-- One bit as a word. -/
def bitWord (b : Bool) : Word := (BitVec.ofBool b).setWidth 32

/-- R80, R81: the SEG bit. -/
def Segment.bit : Segment → Bool
  | .ad => false
  | .pt => true

/-- R80, R81: the SRC bit. -/
def SeedSource.bit : SeedSource → Bool
  | .tag => false
  | .tagin => true

/-- R87: the word of a command. -/
def encode : Instr → Word
  | .init adp ptp => rowInit.op ||| placed (bitWord adp) 11 ||| placed (bitWord ptp) 12
  | .abs seg fin len =>
      rowAbs.op ||| placed (BitVec.ofNat 32 len) 4 ||| placed (bitWord fin) 9
        ||| placed (bitWord seg.bit) 10
  | .kseed src => rowKseed.op ||| placed (bitWord src.bit) 13
  | .ks fin len => rowKs.op ||| placed (BitVec.ofNat 32 len) 4 ||| placed (bitWord fin) 9
  | .ksabs fin len => rowKsabs.op ||| placed (BitVec.ofNat 32 len) 4 ||| placed (bitWord fin) 9
  | .verify => rowVerify.op
  | .clear => rowClear.op

/-- The command the decoder reads from an opcode-table word: a command is one 32-bit word (R80), so
the bits at and above `nbits` are 0 and the word is given to `decode` as it stands. -/
def decodeTableWord (nbits w : Nat) : Option Instr :=
  (decode (BitVec.ofNat 32 (w % 2 ^ nbits))).toOption

end Sys2Proof
end

