-- ==== Sys2Proof/Machine/Blocks.lean ====
section
/-! DEFINITION. Blocks and their bytes (00_scope.md R9, R10; 20_memory.md R53) and the pure functions of the
absorption engine (40_absorb.md R100 to R103). -/

namespace Sys2Proof.Machine

/-- R9, R10: `b[i]`, for `i` in 0..15; `b[0]` is the most significant byte. -/
def blockByte (b : Block) (i : Nat) : Byte := b.extractLsb' (8 * (15 - i)) 8

/-- R9: the block of the sixteen bytes `f 0 .. f 15`. -/
def blockOfFn (f : Nat → Byte) : Block :=
  (f 0 ++ f 1 ++ f 2 ++ f 3 ++ f 4 ++ f 5 ++ f 6 ++ f 7 ++ f 8 ++ f 9 ++ f 10 ++ f 11 ++ f 12
    ++ f 13 ++ f 14 ++ f 15 : BitVec (8 + 8 + 8 + 8 + 8 + 8 + 8 + 8 + 8 + 8 + 8 + 8 + 8 + 8 + 8 + 8))

/-- R9: the block of the first sixteen bytes of a sequence, zero past its end. -/
def blockOfBytes (l : List Byte) : Block := blockOfFn fun i => l.getD i 0

/-- R9: the sixteen bytes of a block, in order. -/
def bytesOfBlock (b : Block) : List Byte := (List.range 16).map (blockByte b)

/-- R9: `trunc(b, R)`: bytes `0..R-1` those of `b`, the rest zero. -/
def truncBlock (b : Block) (r : Nat) : Block :=
  blockOfFn fun i => if i < r then blockByte b i else 0

/-- R53: byte `j` of a word, bits `8j+7 : 8j`. -/
def wordByte (v : Word) (j : Nat) : Byte := v.extractLsb' (8 * j) 8

/-- R53: `word_k(X)`, little-endian by lane. -/
def blockWord (x : Block) (k : Nat) : Word :=
  (blockByte x (4 * k)).setWidth 32 ||| ((blockByte x (4 * k + 1)).setWidth 32 <<< 8)
    ||| ((blockByte x (4 * k + 2)).setWidth 32 <<< 16)
    ||| ((blockByte x (4 * k + 3)).setWidth 32 <<< 24)

/-- R53: a write of `v` to word `k`: `X[4k+j] <- v[8j+7:8j]` for `j` in 0..3, no other byte changed. -/
def setBlockWord (x : Block) (k : Nat) (v : Word) : Block :=
  blockOfFn fun i => if i / 4 = k then wordByte v (i % 4) else blockByte x i

/-- R100: `pad(b, R)`: the first `R` bytes of `b`, then 0x80 if `R < 16`, then zeros. -/
def padBlock (b : Block) (r : Nat) : Block :=
  blockOfFn fun i => if i < r then blockByte b i else if i = r then 0x80 else 0

/-- R102: `dbl(X)`, multiplication by x in GF(2^128) on R10's big-endian integer. -/
def dblBlock (x : Block) : Block := if x.msb then (x <<< 1) ^^^ 0x87 else x <<< 1

/-- R103: `DSB(adp, ptp)`: byte 0 is `adp<<7 | ptp<<6`, the others zero (92 D6). -/
def dsbBlock (adp ptp : Bool) : Block :=
  blockOfFn fun i =>
    if i = 0 then
      ((BitVec.ofBool adp).setWidth 8 <<< 7) ||| ((BitVec.ofBool ptp).setWidth 8 <<< 6)
    else 0

/-- R111, R134: one absorption step of the block `b` into the chaining value `v`: a plain chaining step,
or the final one, padded and doubled. -/
def absorbBlock (E : Block → Block) (fin : Bool) (r : Nat) (b v : Block) : Block :=
  if fin then E (dblBlock (v ^^^ padBlock b r)) else E (v ^^^ b)

end Sys2Proof.Machine
end

