-- ==== Sys2Proof/Machine/State.lean ====
section
/-! DEFINITION. The state of the block as plain data, the atomic steps of its environment, the reasons a
step can stop, and the state after reset (10_state.md). -/

namespace Sys2Proof.Machine

/-- R27: ABS_PHASE, the state of the absorption engine. -/
inductive AbsPhase where
  /-- 0: no chaining value; after reset or CLEAR. -/
  | idle
  /-- 1: V is valid; the next absorption step is an associated-data block. -/
  | ad
  /-- 2: V is valid; the next absorption step is a plaintext block. -/
  | pt
  /-- 3: absorption complete; V is the tag. -/
  | tagrdy
  deriving DecidableEq, Repr

/-- R28: KS_PHASE, the state of the keystream engine. The value 3 never occurs, so it has no
constructor. -/
inductive KsPhase where
  /-- 0: no seed loaded; after reset or CLEAR. -/
  | kidle
  /-- 1: seeded; keystream blocks may be generated. -/
  | krun
  /-- 2: the final keystream block has been generated; a new seed is needed. -/
  | kdone
  deriving DecidableEq, Repr

/-- R31: AUTH, the result of the last VERIFY. The value 3 never occurs. -/
inductive Auth where
  /-- 0: no VERIFY since INIT, CLEAR or reset. -/
  | none
  /-- 1: the tags were equal. -/
  | ok
  /-- 2: the tags differed. -/
  | fail
  deriving DecidableEq, Repr

/-- R186: the cause codes held in CAUSE. The codes 6 to 15 never occur. -/
inductive Cause where
  /-- 0: no error since the last CLEAR or reset. -/
  | none
  /-- 1: reserved opcode or a nonzero bit outside the command's fields. -/
  | illegal
  /-- 2: a length R84 forbids. -/
  | badLen
  /-- 3: the command is not legal in the current phases. -/
  | sequence
  /-- 4: a command that calls the cipher while KEY_READY = 0. -/
  | noKey
  /-- 5: a CMD write other than CLEAR while a command is pending. -/
  | busy
  deriving DecidableEq, Repr

/-- R30: the pending command with the copies of DIN and TAGIN taken when it was accepted. -/
structure Pending where
  word : Word
  din : Block
  tagin : Block
  deriving DecidableEq, Repr

/-- R50: where a bus access lands after address decoding (`decodeAddress` of `Machine/Bus.lean`). -/
inductive Target where
  /-- In the window, at this offset from BASE. -/
  | block (off : BitVec 8)
  /-- At any other address: "the block does not respond". -/
  | elsewhere
  deriving DecidableEq, Repr

/-- R58: the atomic steps. Each is one element of an interleaving. -/
inductive Event where
  /-- A host bus read of `bytes` bytes. -/
  | read (target : Target) (bytes : Nat)
  /-- A host bus write of `bytes` bytes, of value `value`. -/
  | write (target : Target) (bytes : Nat) (value : Word)
  /-- The engine step (R158), enabled exactly when a command is pending. -/
  | engine
  /-- The key loader drives KEY_READY to this level (R33). -/
  | keyReady (level : Bool)
  /-- The key loader replaces the loaded key (R224). -/
  | keyChange
  /-- Reset is asserted (R215). -/
  | reset
  deriving DecidableEq, Repr

/-- What one host read returned (R156). -/
structure Response where
  off : BitVec 8
  data : Word
  deriving DecidableEq, Repr

/-- The state of the block (R21 to R34), the level of its input KEY_READY (R33), and two fields of the
model's own: the interleaving still to come and what the host's reads have returned. -/
structure State where
  /-- V, the chaining value (R21). -/
  regV : Block
  /-- S, the keystream register (R22). -/
  regS : Block
  /-- DIN, the data-input register (R23). -/
  din : Block
  /-- DOUT, the data-output register (R24). -/
  dout : Block
  /-- TAGIN, the supplied-tag register (R25). -/
  tagin : Block
  /-- ABS_PHASE (R27). -/
  absPhase : AbsPhase
  /-- KS_PHASE (R28). -/
  ksPhase : KsPhase
  /-- ADP, latched by INIT (R29). -/
  adp : Bool
  /-- PTP, latched by INIT (R29). -/
  ptp : Bool
  /-- PEND (R30). -/
  pend : Option Pending
  /-- AUTH (R31). -/
  auth : Auth
  /-- ERRF (R32). -/
  errf : Bool
  /-- CAUSE (R32). -/
  cause : Cause
  /-- IRQ_EN (R34, R37): bit 0 DONE_EN, bit 1 ERR_EN, bit 2 AUTHFAIL_EN. -/
  irqEn : BitVec 3
  /-- IRQ_PEND (R34, R38): bit 0 DONE, bit 1 ERR, bit 2 AUTHFAIL. -/
  irqPend : BitVec 3
  /-- KEY_READY, the level of the input (R33; "not state of the block"). -/
  keyReady : Bool
  /-- The MODEL's own: the atomic steps still to come, in order (R58; log entry 2). -/
  schedule : List Event
  /-- The MODEL's own: what the host's reads have returned, oldest first (R156; log entry 3). -/
  responses : List Response
  deriving DecidableEq, Repr

/-- The reasons for which the machine stops with a fault: none. R51: "No access traps or faults for
its address"; R192: "the block never hangs and never aborts". Nobody raises one. -/
inductive Fault where
  deriving DecidableEq, Repr

/-- The runs the model does not accept. -/
inductive Refusal where
  /-- Raised by an arm of `exec` for an instruction without a meaning (no arm does). Safe. -/
  | notModelled (mnemonic : String)
  /-- Raised by a bus access to the window of a width other than 4 bytes: R55, "refuses any other
  access width". Safe: no claim is made about such an access. -/
  | accessWidth (bytes : Nat)
  /-- Raised by a change of the key: R224, "must be refused by it, not given a meaning"; R5 fixes E
  for the whole run. Safe. -/
  | keyChanged
  /-- Raised by a drop of KEY_READY while a command is pending: R224, 93 I8. Safe. -/
  | keyDropWhilePending
  /-- Raised by a drop of KEY_READY between two commands of an operation in progress: R224, "must be
  refused by it, not given a meaning"; 93 I8 (log entry 5). Safe. -/
  | keyDropInOperation
  deriving DecidableEq, Repr

/-- R40: the state after reset. KEY_READY (log entry 1), the schedule (log entry 2) and the responses
(log entry 3) are the model's choice; every other value is R40's. -/
def State.reset : State where
  regV := 0
  regS := 0
  din := 0
  dout := 0
  tagin := 0
  absPhase := .idle
  ksPhase := .kidle
  adp := false
  ptp := false
  pend := none
  auth := .none
  errf := false
  cause := .none
  irqEn := 0
  irqPend := 0
  keyReady := false
  schedule := []
  responses := []

end Sys2Proof.Machine
end

