-- ==== Sys2Proof/Machine/Operands.lean ====
section
/-! DEFINITION. What a command reads when it executes: the snapshot, the seed, the length check, and the
phase its segment needs (10_state.md R30, 30_encoding.md R84, 60_exceptions.md R187). -/

namespace Sys2Proof.Machine

/-- R30: `din`, the copy of DIN taken at acceptance. With no command in the slot the engine step is not
enabled (R158) and `step` executes none; the value is then DIN itself (log entry 9). -/
def State.snapDin (s : State) : Block :=
  match s.pend with
  | some p => p.din
  | none => s.din

/-- R30: `tin`, the copy of TAGIN taken at acceptance; TAGIN itself with no command in the slot (log
entry 9). -/
def State.snapTagin (s : State) : Block :=
  match s.pend with
  | some p => p.tagin
  | none => s.tagin

/-- R132: the seed KSEED loads: `(SRC = 0) ? V : tin`. -/
def State.seed (s : State) : SeedSource → Block
  | .tag => s.regV
  | .tagin => s.snapTagin

/-- R84: the length is legal: `1 <= R <= 16`, and `R = 16` unless FIN = 1. -/
def lenLegal (fin : Bool) (len : Nat) : Bool :=
  decide (1 ≤ len) && decide (len ≤ 16) && (fin || decide (len = 16))

/-- R187, case ABS: the phase in which a block of the segment may be absorbed. -/
def segPhase : Segment → AbsPhase
  | .ad => .ad
  | .pt => .pt

/-- R187, case ABS: `ABS_PHASE = (w[10] = 1 ? PT : AD)`. -/
def State.absLegal (s : State) (seg : Segment) : Bool := decide (s.absPhase = segPhase seg)

/-- R187, case KSEED: `KS_PHASE != KRUN and (w[13] = 1 or ABS_PHASE = TAGRDY)`. -/
def State.kseedLegal (s : State) (src : SeedSource) : Bool :=
  decide (s.ksPhase ≠ .krun) && (decide (src = .tagin) || decide (s.absPhase = .tagrdy))

/-- R187, case KS: `KS_PHASE = KRUN`. -/
def State.ksLegal (s : State) : Bool := decide (s.ksPhase = .krun)

/-- R187, case KSABS: `KS_PHASE = KRUN and ABS_PHASE = PT`. -/
def State.ksabsLegal (s : State) : Bool :=
  decide (s.ksPhase = .krun) && decide (s.absPhase = .pt)

/-- R187, case VERIFY: `ABS_PHASE = TAGRDY`. -/
def State.verifyLegal (s : State) : Bool := decide (s.absPhase = .tagrdy)

/-- R110: the phase INIT enters: `ADP ? AD : (PTP ? PT : TAGRDY)`. -/
def phaseAfterInit (adp ptp : Bool) : AbsPhase :=
  if adp then .ad else if ptp then .pt else .tagrdy

/-- R27, R111: the phase after a final absorption step: from AD to PT if PTP, else to TAGRDY; from
any other phase to TAGRDY. -/
def phaseAfterFinal (phase : AbsPhase) (ptp : Bool) : AbsPhase :=
  match phase with
  | .ad => if ptp then .pt else .tagrdy
  | .idle => .tagrdy
  | .pt => .tagrdy
  | .tagrdy => .tagrdy

end Sys2Proof.Machine
end

