-- ==== Sys2Proof/Machine/Flags.lean ====
section
/-! DEFINITION. The fields the host reads, computed from the state (10_state.md R26, R35 to R39), the interrupt
bits and line (60_exceptions.md R195, R196), and whether an operation is in progress
(70_reset_and_hazards.md R224). -/

namespace Sys2Proof.Machine

/-- R27: the two bits of ABS_PHASE. -/
def AbsPhase.code : AbsPhase → BitVec 2
  | .idle => 0
  | .ad => 1
  | .pt => 2
  | .tagrdy => 3

/-- R28: the two bits of KS_PHASE. -/
def KsPhase.code : KsPhase → BitVec 2
  | .kidle => 0
  | .krun => 1
  | .kdone => 2

/-- R31: the two bits of AUTH. -/
def Auth.code : Auth → BitVec 2
  | .none => 0
  | .ok => 1
  | .fail => 2

/-- R186: the four bits of CAUSE. -/
def Cause.code : Cause → BitVec 4
  | .none => 0
  | .illegal => 1
  | .badLen => 2
  | .sequence => 3
  | .noKey => 4
  | .busy => 5

/-- R30: BUSY is `PEND != none`. -/
def State.busy (s : State) : Bool := s.pend.isSome

/-- R224, 93 I8: what the block's state shows of an operation in progress (R172, R173): an absorption that has
begun and not ended; a complete tag of an operation with a plaintext segment, whose keystream commands
may still come; or a keystream that is running beside a complete tag. None in the error state, where
the operation "is abandoned" (R192). Not a running keystream before any INIT, nor a complete tag with
PTP = 0 and no running keystream: 95_test_vectors.md 3.11 (last row) and 3.9 (last row) give a drop of
KEY_READY there its meaning (log entry 5). -/
def State.inOperation (s : State) : Bool :=
  !s.errf && (decide (s.absPhase = .ad) || decide (s.absPhase = .pt)
    || (decide (s.absPhase = .tagrdy) && (s.ptp || decide (s.ksPhase = .krun))))

/-- R35: TAG_VALID is 1 iff `ABS_PHASE = TAGRDY`. -/
def State.tagValid (s : State) : Bool := decide (s.absPhase = .tagrdy)

/-- R26: the TAG view: V when `ABS_PHASE = TAGRDY`, zero otherwise. -/
def State.tagView (s : State) : Block := if s.tagValid then s.regV else 0

/-- R35: one bit as a word. -/
def flagWord (b : Bool) : Word := (BitVec.ofBool b).setWidth 32

/-- R35: STATUS. -/
def State.status (s : State) : Word :=
  flagWord s.busy ||| (flagWord s.errf <<< 1) ||| (flagWord s.tagValid <<< 2)
    ||| (s.auth.code.setWidth 32 <<< 3) ||| (s.absPhase.code.setWidth 32 <<< 5)
    ||| (s.ksPhase.code.setWidth 32 <<< 7) ||| (flagWord s.adp <<< 9)
    ||| (flagWord s.ptp <<< 10) ||| (flagWord s.keyReady <<< 11)

/-- R36: ERR reads `zext_32(CAUSE)`. -/
def State.errWord (s : State) : Word := s.cause.code.setWidth 32

/-- R39: the identity word. -/
def idWord : Word := 0x53554E44

/-- R196: the bit of the source DONE. -/
def irqDone : BitVec 3 := 1
/-- R196: the bit of the source ERR. -/
def irqErr : BitVec 3 := 2
/-- R196: the bit of the source AUTHFAIL. -/
def irqAuthFail : BitVec 3 := 4

/-- R195: the interrupt line, `(IRQ_EN[0] AND IRQ_PEND[0]) OR (IRQ_EN[1] AND IRQ_PEND[1]) OR
(IRQ_EN[2] AND IRQ_PEND[2])`. -/
def State.irq (s : State) : Bool :=
  (s.irqEn.getLsbD 0 && s.irqPend.getLsbD 0) || (s.irqEn.getLsbD 1 && s.irqPend.getLsbD 1)
    || (s.irqEn.getLsbD 2 && s.irqPend.getLsbD 2)

end Sys2Proof.Machine
end

