-- ==== Sys2Proof/Machine/Ops.lean ====
section
/-! DEFINITION. The shared operations on the state: recording an error (the block's whole exception entry,
60_exceptions.md R190), ending a command by completion or by rejection (42_control.md R158), the checks
a command passes first (R187), zeroisation (R151) and reset (R215). R192: there is no return from an
error; `clearBlock` and `resetBlock` are the only ways out of the error state. -/

namespace Sys2Proof.Machine

/-- R38, R196: set bits of IRQ_PEND. -/
def State.raiseIrq (s : State) (bits : BitVec 3) : State := { s with irqPend := s.irqPend ||| bits }

/-- R190: `RecordError(c)`. -/
def State.recordError (s : State) (c : Cause) : State :=
  { s with
    cause := if s.errf then s.cause else c
    errf := true
    irqPend := s.irqPend ||| irqErr }

/-- R158, R192: empty the pending slot with no other effect. -/
def State.discard (s : State) : State := { s with pend := none }

/-- R158: `PEND <- none` and then `RecordError(c)`: the end of a rejected command. -/
def State.rejectCmd (s : State) (c : Cause) : State := s.discard.recordError c

/-- R158: `PEND <- none` and, after the command's effect, `IRQ_PEND.DONE <- 1`: the end of a command
that completes. -/
def State.completeCmd (s : State) : State := s.discard.raiseIrq irqDone

/-- R187, R188: the checks of a command in their order, BAD_LEN, SEQUENCE, NO_KEY (ILLEGAL is the
decoder's), and then its effect, which ends in completion. `lenOk` and `seqOk` are the length and
phase checks of the command; `needsKey` says that it calls the cipher. -/
def runCommand (lenOk seqOk needsKey : Bool) (effect : State → State) (s : State) :
    Host.Outcome State Fault Refusal :=
  if !lenOk then .next (s.rejectCmd .badLen)
  else if !seqOk then .next (s.rejectCmd .sequence)
  else if needsKey && !s.keyReady then .next (s.rejectCmd .noKey)
  else .next (effect s).completeCmd

/-- R151: zeroise every piece of state but IRQ_EN; a pending command is discarded. The input KEY_READY
and the model's own fields are not the block's state. -/
def State.clearBlock (s : State) : State :=
  { State.reset with
    irqEn := s.irqEn
    keyReady := s.keyReady
    schedule := s.schedule
    responses := s.responses }

/-- R215, R40: the reset event. KEY_READY stays what the key loader drives. -/
def State.resetBlock (s : State) : State :=
  { State.reset with
    keyReady := s.keyReady
    schedule := s.schedule
    responses := s.responses }

/-- R30, R157: `PEND <- (w, DIN, TAGIN)`: acceptance of a command with its snapshot. -/
def State.acceptCmd (s : State) (w : Word) : State :=
  { s with pend := some { word := w, din := s.din, tagin := s.tagin } }

/-- R156: the host's read returns `data` at `off`; nothing else changes (R56). -/
def State.respond (s : State) (off : BitVec 8) (data : Word) : State :=
  { s with responses := s.responses ++ [{ off := off, data := data }] }

/-- R58: the interleaving has moved on to `rest`. -/
def State.withSchedule (s : State) (rest : List Event) : State := { s with schedule := rest }

end Sys2Proof.Machine
end

