-- ==== Sys2Proof/Machine/Absorb.lean ====
section
/-! DEFINITION. The commands of the absorption engine: INIT and ABS (40_absorb.md R110, R111). -/

namespace Sys2Proof.Machine

/-- R110: the pseudocode of INIT. -/
def initEffect (adp ptp : Bool) (s : State) : State :=
  { s with
    adp := adp
    ptp := ptp
    regV := Config.E (dsbBlock adp ptp)
    auth := .none
    absPhase := phaseAfterInit adp ptp }

/-- R110: INIT, legal in every phase; NO_KEY without a key. -/
def execInit (adp ptp : Bool) (s : State) : Host.Outcome State Fault Refusal :=
  runCommand true true true (initEffect adp ptp) s

/-- R111: the pseudocode of ABS. -/
def absEffect (fin : Bool) (len : Nat) (s : State) : State :=
  { s with
    regV := absorbBlock Config.E fin len s.snapDin s.regV
    absPhase := if fin then phaseAfterFinal s.absPhase s.ptp else s.absPhase }

/-- R111: ABS, with its errors BAD_LEN, SEQUENCE and NO_KEY. -/
def execAbs (seg : Segment) (fin : Bool) (len : Nat) (s : State) :
    Host.Outcome State Fault Refusal :=
  runCommand (lenLegal fin len) (s.absLegal seg) true (absEffect fin len) s

end Sys2Proof.Machine
end

