-- ==== Sys2Proof/Machine/Control.lean ====
section
/-! DEFINITION. The tag check and the zeroisation: VERIFY and CLEAR (42_control.md R150, R151). -/

namespace Sys2Proof.Machine

/-- R150: `d`, the OR over all sixteen bytes of `V[i] XOR tin[i]`. -/
def tagDifference (v tin : Block) : Byte :=
  (List.range 16).foldl (fun d i => d ||| (blockByte v i ^^^ blockByte tin i)) 0

/-- R150: the pseudocode of VERIFY. -/
def verifyEffect (s : State) : State :=
  if tagDifference s.regV s.snapTagin = 0 then { s with auth := .ok }
  else { s with auth := .fail, dout := 0, irqPend := s.irqPend ||| irqAuthFail }

/-- R150: VERIFY; it calls no cipher, so it never raises NO_KEY. A mismatch is a completion. -/
def execVerify (s : State) : Host.Outcome State Fault Refusal :=
  runCommand true s.verifyLegal false verifyEffect s

/-- R151: CLEAR; no error, accepted in every state, no DONE signalled. -/
def execClear (s : State) : Host.Outcome State Fault Refusal := .next s.clearBlock

end Sys2Proof.Machine
end

