-- ==== Sys2Proof/Machine/Keystream.lean ====
section
/-! DEFINITION. The commands of the keystream engine and the tag-seeded IV path: KSEED, KS and KSABS
(41_keystream.md R132 to R134). -/

namespace Sys2Proof.Machine

/-- R132: the pseudocode of KSEED. -/
def kseedEffect (src : SeedSource) (s : State) : State :=
  { s with
    regS := s.seed src
    ksPhase := .krun
    dout := 0 }

/-- R132: KSEED; it calls no cipher, so it never raises NO_KEY. -/
def execKseed (src : SeedSource) (s : State) : Host.Outcome State Fault Refusal :=
  runCommand true (s.kseedLegal src) false (kseedEffect src) s

/-- R133, R134: the keystream step they share: `S <- E(S)`, `DOUT <- trunc(din XOR S, R)` with the new
S, and KDONE after a final block. -/
def keystreamStep (fin : Bool) (len : Nat) (s : State) : State :=
  { s with
    regS := Config.E s.regS
    dout := truncBlock (s.snapDin ^^^ Config.E s.regS) len
    ksPhase := if fin then .kdone else s.ksPhase }

/-- R133: KS, with its errors BAD_LEN, SEQUENCE and NO_KEY. -/
def execKs (fin : Bool) (len : Nat) (s : State) : Host.Outcome State Fault Refusal :=
  runCommand (lenLegal fin len) s.ksLegal true (keystreamStep fin len) s

/-- R134: the pseudocode of KSABS: the keystream step, and then its result P, which is the new DOUT,
absorbed as a plaintext block; a final one leaves ABS_PHASE = TAGRDY. -/
def ksabsEffect (fin : Bool) (len : Nat) (s : State) : State :=
  let t := keystreamStep fin len s
  { t with
    regV := absorbBlock Config.E fin len t.dout t.regV
    absPhase := if fin then .tagrdy else t.absPhase }

/-- R134: KSABS, with its errors BAD_LEN, SEQUENCE and NO_KEY. -/
def execKsabs (fin : Bool) (len : Nat) (s : State) : Host.Outcome State Fault Refusal :=
  runCommand (lenLegal fin len) s.ksabsLegal true (ksabsEffect fin len) s

end Sys2Proof.Machine
end

