-- ==== Sys2Proof/Machine/Dispatch.lean ====
section
/-! DEFINITION. The dispatch of a command to its meaning, one arm per constructor of Instr. -/

namespace Sys2Proof.Machine

/-- The meaning of a command that executes: INIT to VERIFY in the engine step (R158), with the checks
of R187 that remain after decoding; CLEAR in the host's CMD write (R157). -/
def exec (i : Instr) (s : State) : Host.Outcome State Fault Refusal :=
  match i with
  | .init adp ptp => Sys2Proof.Machine.execInit adp ptp s
  | .abs seg fin len => Sys2Proof.Machine.execAbs seg fin len s
  | .kseed src => Sys2Proof.Machine.execKseed src s
  | .ks fin len => Sys2Proof.Machine.execKs fin len s
  | .ksabs fin len => Sys2Proof.Machine.execKsabs fin len s
  | .verify => Sys2Proof.Machine.execVerify s
  | .clear => Sys2Proof.Machine.execClear s

end Sys2Proof.Machine
end

