-- ==== Sys2Proof/Machine/Bus.lean ====
section
/-! DEFINITION. The register window: address decoding (20_memory.md R50, R51), the register map (R52), and the
host's reads and writes (42_control.md R155 to R157). -/

namespace Sys2Proof.Machine

/-- R50: an access at `BASE <= a < BASE + 256` reaches the block at offset `a - BASE`; the block does
not respond to any other address. -/
def decodeAddress (a : Nat) : Target :=
  if Config.BASE ≤ a ∧ a < Config.BASE + 256 then .block (BitVec.ofNat 8 (a - Config.BASE))
  else .elsewhere

/-- R52: the registers of the window. The block registers carry the number of their word, 0 to 3. -/
inductive Register where
  | id
  | cmd
  | status
  | err
  | irqEn
  | irqPend
  | din (k : Nat)
  | dout (k : Nat)
  | tag (k : Nat)
  | tagin (k : Nat)
  | reserved
  deriving DecidableEq, Repr

/-- R51: the block decodes `off[7:2]` as a word index and ignores `off[1:0]`. -/
def wordIndex (off : BitVec 8) : Nat := (off.extractLsb' 2 6).toNat

/-- R52: the register map, by word index (offset / 4). -/
def registerAt (off : BitVec 8) : Register :=
  match wordIndex off with
  | 0 => .id
  | 1 => .cmd
  | 2 => .status
  | 3 => .err
  | 4 => .irqEn
  | 5 => .irqPend
  | 8 => .din 0
  | 9 => .din 1
  | 10 => .din 2
  | 11 => .din 3
  | 12 => .dout 0
  | 13 => .dout 1
  | 14 => .dout 2
  | 15 => .dout 3
  | 16 => .tag 0
  | 17 => .tag 1
  | 18 => .tag 2
  | 19 => .tag 3
  | 20 => .tagin 0
  | 21 => .tagin 1
  | 22 => .tagin 2
  | 23 => .tagin 3
  | _ => .reserved

/-- R156: what a host read returns. -/
def busRead (off : BitVec 8) (s : State) : Word :=
  match registerAt off with
  | .id => idWord
  | .cmd => 0
  | .status => s.status
  | .err => s.errWord
  | .irqEn => s.irqEn.setWidth 32
  | .irqPend => s.irqPend.setWidth 32
  | .din k => blockWord s.din k
  | .dout k => blockWord s.dout k
  | .tag k => blockWord s.tagView k
  | .tagin k => blockWord s.tagin k
  | .reserved => 0

/-- R85, R151: the CLEAR word. -/
def clearWord : Word := 0x00000007

/-- R157: `CmdWrite(w)`. -/
def cmdWrite (w : Word) (s : State) : Host.Outcome State Fault Refusal :=
  if w = clearWord then exec .clear s
  else if s.errf then .next s
  else if s.busy then .next (s.recordError .busy)
  else .next (s.acceptCmd w)

/-- R155: a host write. -/
def busWrite (off : BitVec 8) (v : Word) (s : State) : Host.Outcome State Fault Refusal :=
  match registerAt off with
  | .cmd => cmdWrite v s
  | .irqEn => .next { s with irqEn := v.setWidth 3 }
  | .irqPend => .next { s with irqPend := s.irqPend &&& ~~~(v.setWidth 3) }
  | .din k => .next { s with din := setBlockWord s.din k v }
  | .tagin k => .next { s with tagin := setBlockWord s.tagin k v }
  | .id => .next s
  | .status => .next s
  | .err => .next s
  | .dout _ => .next s
  | .tag _ => .next s
  | .reserved => .next s

end Sys2Proof.Machine
end

