-- ==== Sys2Proof/Machine/Engine.lean ====
section
/-! DEFINITION. The engine step (42_control.md R158), the other atomic steps of 20_memory.md R58, and
how an instruction is placed where the next step takes it from. -/

namespace Sys2Proof.Machine

/-- R158: the engine step. Not enabled with an empty slot; in the error state the pending command is
discarded; a word that selects none of INIT to VERIFY is rejected with ILLEGAL (R187: OP 0x7 too, and
the CLEAR word itself never enters the slot, R157); any other is executed, which ends in its
completion or its rejection. -/
def engineStep (s : State) : Host.Outcome State Fault Refusal :=
  match s.pend with
  | none => .next s
  | some p =>
    if s.errf then .next s.discard
    else
      match decode p.word with
      | .error _ => .next (s.rejectCmd .illegal)
      | .ok .clear => .next (s.rejectCmd .illegal)
      | .ok i => exec i s

/-- R58: one atomic step of an interleaving, on a state whose schedule has already moved past it. -/
def perform (e : Event) (s : State) : Host.Outcome State Fault Refusal :=
  match e with
  | .read .elsewhere _ => .next s
  | .read (.block off) bytes =>
    if bytes = 4 then .next (s.respond off (busRead off s)) else .refused (.accessWidth bytes)
  | .write .elsewhere _ _ => .next s
  | .write (.block off) bytes v =>
    if bytes = 4 then busWrite off v s else .refused (.accessWidth bytes)
  | .engine => engineStep s
  | .keyReady level =>
    if s.keyReady && !level && s.busy then .refused .keyDropWhilePending
    else if s.keyReady && !level && s.inOperation then .refused .keyDropInOperation
    else .next { s with keyReady := level }
  | .keyChange => .refused .keyChanged
  | .reset => .next s.resetBlock

/-- The write of a command word to CMD, as it reaches the block (R52: offset 0x04, R55: 4 bytes). -/
def cmdWriteEvent (w : Word) : Event := .write (.block 0x04) 4 w

/-- The instruction word `w` placed where the next step executes it. The CLEAR word is executed in
the host's write to CMD (R151), so that write is the next event. Any other word is executed by the engine step from
the pending slot (R158), so the slot holds it, with the snapshot acceptance would take (R157), and the
engine step is the next event (log entry 10). -/
def placeWord (s : State) (w : Word) : State :=
  if w = clearWord then s.withSchedule (cmdWriteEvent w :: s.schedule)
  else (s.acceptCmd w).withSchedule (.engine :: s.schedule)

end Sys2Proof.Machine
end

