-- ==== Sys2Proof/Machine/Step.lean ====
section
/-! DEFINITION. The step of the machine, and the placing of an instruction for it. -/

namespace Sys2Proof.Machine

/-- R58: the next atomic step of the interleaving. When the schedule is empty the engine executes what
is pending (R229, weak fairness), and with nothing pending the block waits unchanged (R204, R216). -/
def step (s : State) : Host.Outcome State Fault Refusal :=
  match s.schedule with
  | [] => engineStep s
  | e :: rest => perform e (s.withSchedule rest)

/-- The instruction whose bits are `w` (those at and above `nbits` zero) where the next step executes
it (log entry 10). -/
def State.withFetchWord (s : State) (nbits w : Nat) : State :=
  placeWord s (BitVec.ofNat 32 (w % 2 ^ nbits))

end Sys2Proof.Machine
end

