-- ==== Sys2Proof/Machine/Check.lean ====
section
/-! DEFINITION. `Check(w)` as 60_exceptions.md R187 writes it, on the bits of the word. The machine makes
these checks in the decoder and in the meanings; statements say that the two agree. -/

namespace Sys2Proof.Machine

/-- R187: `(w AND mask_op) != op` with `op` in {1,...,6}; R82's masks. -/
def checkFields (w : Word) : Bool :=
  match (fieldOp w).toNat with
  | 1 => rowInit.selectedBy w
  | 2 => rowAbs.selectedBy w
  | 3 => rowKseed.selectedBy w
  | 4 => rowKs.selectedBy w
  | 5 => rowKsabs.selectedBy w
  | 6 => rowVerify.selectedBy w
  | _ => false

/-- R187: `R = 0 or R > 16 or (w[9] = 0 and R != 16)`. -/
def checkBadLen (w : Word) : Bool :=
  decide (fieldLen w = 0) || decide (16 < fieldLen w) || (!w.getLsbD 9 && decide (fieldLen w ≠ 16))

/-- R187: `op in {ABS, KS, KSABS}`. -/
def checkHasLen (w : Word) : Bool :=
  (fieldOp w).toNat == 2 || (fieldOp w).toNat == 4 || (fieldOp w).toNat == 5

/-- R187: `op in {INIT, ABS, KS, KSABS}`. -/
def checkNeedsKey (w : Word) : Bool := (fieldOp w).toNat == 1 || checkHasLen w

/-- R187: `legal`, by the opcode. -/
def checkLegal (w : Word) (s : State) : Bool :=
  match (fieldOp w).toNat with
  | 1 => true
  | 2 => decide (s.absPhase = if w.getLsbD 10 then .pt else .ad)
  | 3 => decide (s.ksPhase ≠ .krun) && (w.getLsbD 13 || decide (s.absPhase = .tagrdy))
  | 4 => decide (s.ksPhase = .krun)
  | 5 => decide (s.ksPhase = .krun) && decide (s.absPhase = .pt)
  | 6 => decide (s.absPhase = .tagrdy)
  | _ => false

/-- R187: `Check(w)`. -/
def checkWord (w : Word) (s : State) : Cause :=
  if !checkFields w then .illegal
  else if checkHasLen w && checkBadLen w then .badLen
  else if !checkLegal w s then .sequence
  else if checkNeedsKey w && !s.keyReady then .noKey
  else .none

end Sys2Proof.Machine
end

