-- ==== Sys2Proof/Machine/Golden.lean ====
section
/-! DEFINITION. The golden functions, over byte sequences and any cipher `E`: Absorb and MAC
(40_absorb.md R104, R105), OFB (41_keystream.md R130), Encrypt and Decrypt (45_host_protocol.md R170,
R171, R175). They are written from their own pseudocode, apart from the commands that realise them. -/

namespace Sys2Proof.Machine

/-- R104, R130: how many full blocks the loop `while L - off > 16` takes. -/
def fullBlocks (len : Nat) : Nat := (len - 1) / 16

/-- R104: `n` chaining steps, and then the final step on what is left. -/
def absorbLoop (E : Block → Block) : Nat → List Byte → Block → Block
  | 0, seg, v => E (dblBlock (v ^^^ padBlock (blockOfBytes seg) seg.length))
  | n + 1, seg, v => absorbLoop E n (seg.drop 16) (E (v ^^^ blockOfBytes (seg.take 16)))

/-- R104: `Absorb(seg, V)`, for a segment of length at least 1. -/
def absorb (E : Block → Block) (seg : List Byte) (v : Block) : Block :=
  absorbLoop E (fullBlocks seg.length) seg v

/-- R13, R105: a segment is present exactly when its length is nonzero. -/
def present (seg : List Byte) : Bool := !seg.isEmpty

/-- R105: absorb the segment if it is present. -/
def absorbPresent (E : Block → Block) (seg : List Byte) (v : Block) : Block :=
  if present seg then absorb E seg v else v

/-- R105: `MAC(A, P)`, the tag. -/
def mac (E : Block → Block) (ad pt : List Byte) : Block :=
  absorbPresent E pt (absorbPresent E ad (E (dsbBlock (present ad) (present pt))))

/-- Bytewise XOR of a sequence with the first bytes of a block (R130: `buf[off .. L-1] XOR S[0 .. R-1]`). -/
def xorBytes (buf : List Byte) (s : Block) : List Byte :=
  List.zipWith (fun a b => a ^^^ b) buf (bytesOfBlock s)

/-- R130: `n` full blocks, and then the last 1 to 16 bytes. -/
def ofbLoop (E : Block → Block) : Nat → List Byte → Block → List Byte × Block
  | 0, buf, s => (xorBytes buf (E s), E s)
  | n + 1, buf, s =>
    let rest := ofbLoop E n (buf.drop 16) (E s)
    (xorBytes (buf.take 16) (E s) ++ rest.1, rest.2)

/-- R130: `OFB(seed, buf)`: the transformed sequence and the final keystream state. An empty buffer
makes no cipher call and leaves the seed. -/
def ofb (E : Block → Block) (seed : Block) (buf : List Byte) : List Byte × Block :=
  if present buf then ofbLoop E (fullBlocks buf.length) buf seed else ([], seed)

/-- R170: `Encrypt(A, P)`: ciphertext and tag. -/
def encrypt (E : Block → Block) (ad pt : List Byte) : List Byte × Block :=
  let t := mac E ad pt
  (if present pt then (ofb E t pt).1 else [], t)

/-- R175: the combined output `C ‖ T`: the tag's bytes, in TAG-view byte order, after the ciphertext's. -/
def combinedOutput (out : List Byte × Block) : List Byte := out.1 ++ bytesOfBlock out.2

/-- R171: the candidate plaintext of Decrypt. -/
def candidate (E : Block → Block) (ct : List Byte) (t : Block) : List Byte :=
  if present ct then (ofb E t ct).1 else []

/-- R171: `Decrypt(A, C, T)`: the plaintext, or none for AuthenticationFailure. -/
def decrypt (E : Block → Block) (ad ct : List Byte) (t : Block) : Option (List Byte) :=
  let p := candidate E ct t
  if mac E ad p = t then some p else none

end Sys2Proof.Machine
end

