-- ==== Sys2Proof/Machine/HostProtocol.lean ====
section
/-! DEFINITION. The host as a program of bus accesses that depend on what it has read: the pseudo-operations of
30_encoding.md R88 and the command sequences of 45_host_protocol.md R172 and R173; and the
interleavings (20_memory.md R58) of such a program with the engine steps. -/

namespace Sys2Proof.Machine

/-- R11, R88: `MemWrite(BASE + off, 4, v)`. -/
def wr (off : Nat) (v : Word) : Event := .write (decodeAddress (Config.BASE + off)) 4 v

/-- R11, R88: `MemRead(BASE + off, 4)`. -/
def rd (off : Nat) : Event := .read (decodeAddress (Config.BASE + off)) 4

/-- R52: the offset of CMD. -/
def offCmd : Nat := 0x04
/-- R52: the offset of STATUS. -/
def offStatus : Nat := 0x08
/-- R52: the offset of DIN0. -/
def offDin : Nat := 0x20
/-- R52: the offset of DOUT0. -/
def offDout : Nat := 0x30
/-- R52: the offset of TAG0. -/
def offTag : Nat := 0x40
/-- R52: the offset of TAGIN0. -/
def offTagin : Nat := 0x50

/-- A host program (R12, R88) that ends with a result: its bus accesses in program order, each by the
offset from BASE, and what it does with the words it reads. -/
inductive HostProg (α : Type) where
  /-- The program has ended. -/
  | ret (result : α)
  /-- `wr OFF, v`, and then the rest. -/
  | write (off : Nat) (v : Word) (rest : HostProg α)
  /-- `rd OFF`, and then the rest, given the word read. -/
  | read (off : Nat) (rest : Word → HostProg α)
  /-- `wait`: read STATUS until bit 0 (BUSY) reads 0, and then the rest, given that last STATUS. -/
  | wait (rest : Word → HostProg α)

/-- R88: the bus access the program makes next, none when it has ended. -/
def HostProg.access {α : Type} : HostProg α → Option Event
  | .ret _ => none
  | .write off v _ => some (wr off v)
  | .read off _ => some (rd off)
  | .wait _ => some (rd offStatus)

/-- R88: the program after its next access, which returned `data` if it was a read. -/
def HostProg.resume {α : Type} (data : Word) : HostProg α → HostProg α
  | .ret a => .ret a
  | .write _ _ rest => rest
  | .read _ rest => rest data
  | .wait rest => if data.getLsbD 0 then .wait rest else rest data

/-- The word the host's last read returned. -/
def State.lastRead (s : State) : Word := (s.responses.getLast?.map Response.data).getD 0

/-- R58, R158, R229: the program runs through the interleaving `es` from the state `s`: each event is an
engine step, which a pending command enables at any point and any time after its acceptance, or the
program's next access. It answers the state and the result when the program has ended with the last
event, and none where `es` is no interleaving of the program with engine steps. -/
def HostProg.follow {α : Type} : List Event → HostProg α → State → Option (State × α)
  | [], .ret a, s => some (s, a)
  | [], .write _ _ _, _ => none
  | [], .read _ _, _ => none
  | [], .wait _, _ => none
  | e :: es, p, s =>
    match perform e s with
    | .next u =>
      if e = .engine then (if s.busy then HostProg.follow es p u else none)
      else if p.access = some e then HostProg.follow es (p.resume u.lastRead) u
      else none
    | .fault _ => none
    | .refused _ => none

/-- R88: `cmd M`. -/
def cmd {α : Type} (m : Instr) (rest : HostProg α) : HostProg α := .write offCmd (encode m) rest

/-- R35: the ERR bit of a STATUS word. -/
def statusErr (w : Word) : Bool := w.getLsbD 1

/-- R172: "stops if ERR is set": where `onError` is a result, the program ends with it if `err`. -/
def stopIf {α : Type} (onError : Option α) (err : Bool) (rest : HostProg α) : HostProg α :=
  match onError with
  | none => rest
  | some a => if err then .ret a else rest

/-- R88: `do M`: `cmd M` and `wait`. For R172, "reads STATUS after each `do` and stops if ERR is set", the read
that ends `wait` is that read, as in 95_test_vectors.md P1 (log entry 15). -/
def doCmd {α : Type} (onError : Option α) (m : Instr) (rest : HostProg α) : HostProg α :=
  cmd m (.wait fun status => stopIf onError (statusErr status) rest)

/-- R88: `ldblk X, b`, `off` the offset of X0. -/
def ldblk {α : Type} (off : Nat) (b : Block) (rest : HostProg α) : HostProg α :=
  .write off (blockWord b 0) (.write (off + 4) (blockWord b 1)
    (.write (off + 8) (blockWord b 2) (.write (off + 12) (blockWord b 3) rest)))

/-- R53: the block whose words are the four given. -/
def blockOfWords (w0 w1 w2 w3 : Word) : Block :=
  setBlockWord (setBlockWord (setBlockWord (setBlockWord 0 0 w0) 1 w1) 2 w2) 3 w3

/-- R88: `rdblk X`, `off` the offset of X0, "unpacked by 20_memory.md rule R53". -/
def rdblk {α : Type} (off : Nat) (rest : Block → HostProg α) : HostProg α :=
  .read off fun w0 => .read (off + 4) fun w1 => .read (off + 8) fun w2 =>
    .read (off + 12) fun w3 => rest (blockOfWords w0 w1 w2 w3)

/-- One block of a segment as the host supplies it: the value for DIN, FIN and R. -/
structure Chunk where
  data : Block
  fin : Bool
  len : Nat
  deriving DecidableEq, Repr

/-- R88: the bytes, padded with any values. -/
def paddedBlock (fill : Block) (bytes : List Byte) : Block :=
  blockOfFn fun i => bytes.getD i (blockByte fill i)

/-- R88: `n` full blocks and the final block of a segment. -/
def chunksLoop (fill : Block) : Nat → List Byte → List Chunk
  | 0, seg => [{ data := paddedBlock fill seg, fin := true, len := seg.length }]
  | n + 1, seg =>
    { data := blockOfBytes (seg.take 16), fin := false, len := 16 }
      :: chunksLoop fill n (seg.drop 16)

/-- R88, R174(b): the blocks of a segment of length at least 1, split "while more than 16 bytes
remain". -/
def chunks (fill : Block) (seg : List Byte) : List Chunk :=
  chunksLoop fill (fullBlocks seg.length) seg

/-- R88: the blocks of `absorb SEG`: for each, `ldblk DIN` and `do ABS`. -/
def absorbBlocks {α : Type} (onError : Option α) (seg : Segment) :
    List Chunk → HostProg α → HostProg α
  | [], rest => rest
  | c :: cs, rest =>
    ldblk offDin c.data (doCmd onError (.abs seg c.fin c.len) (absorbBlocks onError seg cs rest))

/-- R88: `absorb SEG, bytes`, its final block padded with the bytes of `fill`. -/
def absorbSeq {α : Type} (onError : Option α) (seg : Segment) (fill : Block) (bytes : List Byte)
    (rest : HostProg α) : HostProg α :=
  absorbBlocks onError seg (chunks fill bytes) rest

/-- R88: the blocks of `stream M`: for each, `ldblk DIN`, `do M` and `rdblk DOUT`, of which the first 16 or
R bytes are kept. `kept` are the bytes kept so far. -/
def streamBlocks {α : Type} (onError : Option α) (m : Bool → Nat → Instr) :
    List Chunk → List Byte → (List Byte → HostProg α) → HostProg α
  | [], kept, rest => rest kept
  | c :: cs, kept, rest =>
    ldblk offDin c.data (doCmd onError (m c.fin c.len) (rdblk offDout fun b =>
      streamBlocks onError m cs (kept ++ (bytesOfBlock b).take c.len) rest))

/-- R88: `stream M, bytes`, for `M` one of KS and KSABS, its final block padded with the bytes of `fill`. -/
def streamSeq {α : Type} (onError : Option α) (m : Bool → Nat → Instr) (fill : Block)
    (bytes : List Byte) (rest : List Byte → HostProg α) : HostProg α :=
  streamBlocks onError m (chunks fill bytes) [] rest

/-- R88: the values the host pads the final block of each `absorb` and of the `stream` with ("any values"):
one for each of the three, chosen freely. -/
structure Fills where
  ad : Block
  pt : Block
  stream : Block

/-- R105, R172: `absorb SEG` if the segment is present. -/
def absorbIfPresent {α : Type} (onError : Option α) (seg : Segment) (fill : Block)
    (bytes : List Byte) (rest : HostProg α) : HostProg α :=
  if present bytes then absorbSeq onError seg fill bytes rest else rest

/-- R172: the host's sequence that encrypts `(A, P)`: its result is `(C, T)`, or none where it stopped because
STATUS had ERR set after a `do`. -/
def encryptSeq (f : Fills) (ad pt : List Byte) : HostProg (Option (List Byte × Block)) :=
  doCmd (some none) (.init (present ad) (present pt)) <|
  absorbIfPresent (some none) .ad f.ad ad <|
  absorbIfPresent (some none) .pt f.pt pt <|
  rdblk offTag fun t =>
  if present pt then
    doCmd (some none) (.kseed .tag) <|
    streamSeq (some none) .ks f.stream pt fun c =>
    cmd .clear <| .ret (some (c, t))
  else cmd .clear <| .ret (some ([], t))

/-- R35: the AUTH field of a STATUS word, bits 4:3. -/
def statusAuth (w : Word) : BitVec 2 := w.extractLsb' 3 2

/-- R173: VERIFY, the read of AUTH and CLEAR: the candidate if AUTH = OK (1), else none, for
AuthenticationFailure. -/
def verifySeq (candidate : List Byte) : HostProg (Option (List Byte)) :=
  doCmd none .verify <|
  .read offStatus fun status =>
  cmd .clear <| .ret (if statusAuth status = 1 then some candidate else none)

/-- R173: the host's sequence that decrypts `(A, C, T)`. `seedFirst` says that KSEED comes before INIT
("KSEED may equally come before INIT"). -/
def decryptSeq (seedFirst : Bool) (f : Fills) (ad ct : List Byte) (t : Block) :
    HostProg (Option (List Byte)) :=
  let init (rest : HostProg (Option (List Byte))) :=
    doCmd none (.init (present ad) (present ct)) <| absorbIfPresent none .ad f.ad ad rest
  let kseed (rest : HostProg (Option (List Byte))) := doCmd none (.kseed .tagin) rest
  ldblk offTagin t <|
  if present ct then
    (if seedFirst then fun rest => kseed (init rest) else fun rest => init (kseed rest)) <|
    streamSeq none .ksabs f.stream ct verifySeq
  else init (verifySeq [])

end Sys2Proof.Machine
end

