-- ==== Sys2Proof/Safety.lean ====
section
/-! DEFINITION. The terms claims use: the invariants of 10_state.md R41, which instruction a step executes,
what lies outside the block's own state, and runs of many steps. -/

namespace Sys2Proof.Machine

/-- R41(a): `ABS_PHASE = IDLE` implies `ADP = 0`, `PTP = 0`, `AUTH = NONE` and `V = 0^16`. -/
abbrev State.idleClean (s : State) : Prop :=
  s.absPhase = .idle → s.adp = false ∧ s.ptp = false ∧ s.auth = .none ∧ s.regV = 0

/-- R41(b): `KS_PHASE = KIDLE` implies `S = 0^16`. -/
abbrev State.kidleClean (s : State) : Prop := s.ksPhase = .kidle → s.regS = 0

/-- R41(c): `AUTH != NONE` implies `ABS_PHASE = TAGRDY`. -/
abbrev State.authNeedsTag (s : State) : Prop := s.auth ≠ .none → s.absPhase = .tagrdy

/-- R41(d): `ERRF = 0` if and only if `CAUSE = 0`. That CAUSE is then in 1..5 is in its type. -/
abbrev State.errorHasCause (s : State) : Prop := s.errf = false ↔ s.cause = .none

/-- R41(e): `ABS_PHASE = AD` implies `ADP = 1`; `ABS_PHASE = PT` implies `PTP = 1`. -/
abbrev State.phaseHasFlag (s : State) : Prop :=
  (s.absPhase = .ad → s.adp = true) ∧ (s.absPhase = .pt → s.ptp = true)

/-- R157, R187: the CLEAR word never enters the pending slot. -/
abbrev State.slotNotClear (s : State) : Prop := ∀ p ∈ s.pend, p.word ≠ clearWord

/-- R224: while an absorption is in progress, and while the tag of an operation with a plaintext segment
stands, the key it began with is loaded. -/
abbrev State.keyHeld (s : State) : Prop :=
  s.errf = false → s.absPhase = .ad ∨ s.absPhase = .pt ∨ (s.absPhase = .tagrdy ∧ s.ptp = true) →
    s.keyReady = true

/-- R41(a) to (e), with `slotNotClear`: what holds in every state reachable from reset. -/
abbrev State.Inv (s : State) : Prop :=
  s.idleClean ∧ s.kidleClean ∧ s.authNeedsTag ∧ s.errorHasCause ∧ s.phaseHasFlag ∧ s.slotNotClear

/-- The state as the next atomic step finds it: the interleaving has moved past that step. -/
def State.advance (s : State) : State := s.withSchedule s.schedule.tail

/-- The engine step is what happens next (R158; R229 with an empty schedule). -/
def State.engineNext (s : State) : Bool :=
  match s.schedule with
  | [] => true
  | e :: _ => decide (e = .engine)

/-- R51, R151: the event is a host write of the CLEAR word that reaches CMD. -/
def Event.isClearWrite : Event → Bool
  | .write (.block off) bytes w =>
    decide (bytes = 4) && decide (registerAt off = .cmd) && decide (w = clearWord)
  | .write .elsewhere _ _ => false
  | .read _ _ => false
  | .engine => false
  | .keyReady _ => false
  | .keyChange => false
  | .reset => false

/-- The instruction the next step executes, if any: a pending INIT to VERIFY whose engine step is next
and not discarded (R158), or CLEAR, whose CMD write is next (R151). A command that executes may still
end in a rejection. -/
def State.executes (s : State) : Option Instr :=
  if s.engineNext then
    match s.pend with
    | none => none
    | some p =>
      if s.errf then none
      else match decode p.word with
        | .error _ => none
        | .ok .clear => none
        | .ok i => some i
  else if s.schedule.head?.any Event.isClearWrite then some .clear
  else none

/-- Two states agree but for the input, the interleaving and the responses: the block is the same. -/
def sameBlock (s t : State) : Prop :=
  t = { s with keyReady := t.keyReady, schedule := t.schedule, responses := t.responses }

/-- `n` steps, stopping at the first that does not answer a next state. -/
def runSteps (n : Nat) (s : State) : Host.Outcome State Fault Refusal := Sys2Proof.core.run n s

/-- `runSteps` over the whole of a piece of interleaving. -/
def runSeq (es : List Event) (s : State) : Host.Outcome State Fault Refusal :=
  runSteps es.length (s.withSchedule (es ++ s.schedule))

/-- R58, R229: from `s` the host's program ends in some interleaving with the engine steps; and in every one in
which it ends, the machine's steps lead to that end, where `post` holds of the state and the result. -/
def HostProg.Ends {α : Type} (p : HostProg α) (s : State) (post : State → α → Prop) : Prop :=
  (∃ es t a, p.follow es s = some (t, a))
    ∧ ∀ es t a, p.follow es s = some (t, a) → runSeq es s = .next t ∧ post t a

end Sys2Proof.Machine
end

