-- ==== Sys2Proof/Certificates/Slice0/Obligations.lean ====
section
/-! DEFINITION. The statements for the provers, from the numbered rules of spec/. Each docstring names the
rule or section a statement formalises. -/

open Sys2Proof Sys2Proof.Machine

/-! ### Encoding -/

/-- 30_encoding.md section 4: words of the table and of its examples, written out from the field layout
of section 1, decode to the command they stand for, and the all-zero word to none. -/
def Obligations.WrittenWordsDecode : Prop :=
  decode 0x00001801 = .ok (.init true true) ∧ decode 0x00000801 = .ok (.init true false)
    ∧ decode 0x00000102 = .ok (.abs .ad false 16) ∧ decode 0x00000612 = .ok (.abs .pt true 1)
    ∧ decode 0x00000003 = .ok (.kseed .tag) ∧ decode 0x00002003 = .ok (.kseed .tagin)
    ∧ decode 0x00000304 = .ok (.ks true 16) ∧ decode 0x00000255 = .ok (.ksabs true 5)
    ∧ decode 0x00000006 = .ok .verify ∧ decode 0x00000007 = .ok .clear
    ∧ decode 0x00000000 = .error .reservedOpcode

/-- 30_encoding.md sections 1 and 4: every command, with every operand its fields hold, is what its own
word decodes to. -/
def Obligations.DecodeOfEncodeIsInstruction : Prop :=
  ∀ i : Instr, i.wellFormed = true → decode (encode i) = .ok i

/-- 30_encoding.md sections 1 and 3: a word that decodes has one reading: it is the word of a well-formed
command, so no bit of it is dropped. -/
def Obligations.EncodeOfDecodeIsWord : Prop :=
  ∀ (w : Word) (i : Instr), decode w = .ok i → i.wellFormed = true ∧ encode i = w

/-- R82 and R187: the mask table decides which command a word selects, and which fields it reads; a pending
word that selects none of INIT to VERIFY is rejected with ILLEGAL when it executes. For a pending
CLEAR word, which no run reaches (R157), that last clause is the model's reading of R187 (log entry
12, DEDUCED). -/
def Obligations.MasksSelectCommands : Prop :=
  (∀ w a p, decode w = .ok (.init a p) ↔
      w &&& 0xFFFFE7FF = 0x1 ∧ a = w.getLsbD 11 ∧ p = w.getLsbD 12)
    ∧ (∀ w g f r, decode w = .ok (.abs g f r) ↔
      w &&& 0xFFFFF80F = 0x2 ∧ r = (w.extractLsb' 4 5).toNat ∧ f = w.getLsbD 9
        ∧ g = if w.getLsbD 10 then .pt else .ad)
    ∧ (∀ w c, decode w = .ok (.kseed c) ↔
      w &&& 0xFFFFDFFF = 0x3 ∧ c = if w.getLsbD 13 then .tagin else .tag)
    ∧ (∀ w f r, decode w = .ok (.ks f r) ↔
      w &&& 0xFFFFFC0F = 0x4 ∧ r = (w.extractLsb' 4 5).toNat ∧ f = w.getLsbD 9)
    ∧ (∀ w f r, decode w = .ok (.ksabs f r) ↔
      w &&& 0xFFFFFC0F = 0x5 ∧ r = (w.extractLsb' 4 5).toNat ∧ f = w.getLsbD 9)
    ∧ (∀ w, decode w = .ok .verify ↔ w &&& 0xFFFFFFFF = 0x6)
    ∧ (∀ w, decode w = .ok .clear ↔ w &&& 0xFFFFFFFF = 0x7)
    ∧ (∀ (s : State) (q : Pending), s.engineNext = true → s.pend = some q → s.errf = false →
      q.word &&& 0xFFFFE7FF ≠ 0x1 → q.word &&& 0xFFFFF80F ≠ 0x2 → q.word &&& 0xFFFFDFFF ≠ 0x3 →
      q.word &&& 0xFFFFFC0F ≠ 0x4 → q.word &&& 0xFFFFFC0F ≠ 0x5 → q.word &&& 0xFFFFFFFF ≠ 0x6 →
      step s = .next { s.advance with
        pend := none, errf := true, cause := .illegal, irqPend := s.irqPend ||| 2 })

/-- R85: the reserved space: a reserved opcode, OP 0x7 other than the CLEAR word, or a nonzero bit
outside the fields of OP 0x1 to 0x6, is rejected with ILLEGAL. -/
def Obligations.ReservedWordsAreIllegal : Prop :=
  ∀ (s : State) (q : Pending), s.engineNext = true → s.pend = some q → s.errf = false →
    (q.word.extractLsb' 0 4 = 0 ∨ (8 ≤ (q.word.extractLsb' 0 4).toNat)
      ∨ (q.word.extractLsb' 0 4 = 7 ∧ q.word ≠ 0x00000007)
      ∨ (q.word.extractLsb' 0 4 = 1 ∧ q.word &&& 0xFFFFE7F0 ≠ 0)
      ∨ (q.word.extractLsb' 0 4 = 2 ∧ q.word &&& 0xFFFFF800 ≠ 0)
      ∨ (q.word.extractLsb' 0 4 = 3 ∧ q.word &&& 0xFFFFDFF0 ≠ 0)
      ∨ (q.word.extractLsb' 0 4 = 4 ∧ q.word &&& 0xFFFFFC00 ≠ 0)
      ∨ (q.word.extractLsb' 0 4 = 5 ∧ q.word &&& 0xFFFFFC00 ≠ 0)
      ∨ (q.word.extractLsb' 0 4 = 6 ∧ q.word &&& 0xFFFFFFF0 ≠ 0)) →
    step s = .next { s.advance with
      pend := none, errf := true, cause := .illegal, irqPend := s.irqPend ||| 2 }

/-! ### The step -/

/-- 42_control.md section 3: when the engine step is next, a pending word that decodes to one of INIT to
VERIFY is executed; and a host write of the CLEAR word to CMD executes CLEAR. -/
def Obligations.StepRunsDecodedInstruction : Prop :=
  (∀ (s : State) (q : Pending) (i : Instr), s.engineNext = true → s.pend = some q →
      s.errf = false → decode q.word = .ok i → i ≠ .clear → step s = exec i s.advance)
    ∧ (∀ (s : State) (off : BitVec 8) (w : Word) (rest : List Event),
      s.schedule = .write (.block off) 4 w :: rest → off &&& 0xFC = 0x04 →
      decode w = .ok .clear → step s = exec .clear s.advance)

/-- Log entry 10 (the model's own): an instruction placed by `withFetchWord` is executed by the very next
step, from a state that is not in the error state. -/
def Obligations.PlacedInstructionRunsNext : Prop :=
  ∀ (s : State) (i : Instr), i.wellFormed = true → s.errf = false →
    step (s.withFetchWord 32 (encode i).toNat) =
      exec i (if i = .clear then s
        else { s with pend := some { word := encode i, din := s.din, tagin := s.tagin } })

/-- R158, R187: the engine step: not enabled with an empty slot, discarding in the error state, rejecting
with the cause `Check(w)` gives, and else executing the command and signalling DONE. -/
def Obligations.EngineStepFollowsCheck : Prop :=
  (∀ s : State, s.engineNext = true → s.pend = none → step s = .next s.advance)
    ∧ (∀ s : State, s.engineNext = true → s.errf = true →
      step s = .next { s.advance with pend := none })
    ∧ (∀ (s : State) (q : Pending), s.engineNext = true → s.pend = some q → s.errf = false →
      checkWord q.word s ≠ .none →
      step s = .next { s.advance with
        pend := none, errf := true, cause := checkWord q.word s, irqPend := s.irqPend ||| 2 })
    ∧ (∀ (s : State) (q : Pending), s.engineNext = true → s.pend = some q → s.errf = false →
      checkWord q.word s = .none →
      ∃ i t, decode q.word = .ok i ∧ step s = exec i s.advance ∧ exec i s.advance = .next t
        ∧ t.pend = none ∧ t.errf = false ∧ t.cause = s.cause ∧ t.irqPend.getLsbD 0 = true)

/-- 70_reset_and_hazards.md section 4: when the engine step is next, a pending command leaves the slot in
that one step, so `wait` ends. -/
def Obligations.EngineStepEmptiesSlot : Prop :=
  ∀ s : State, s.engineNext = true → ∃ t, step s = .next t ∧ t.pend = none ∧ t.busy = false

/-- 60_exceptions.md section 2 (the block never hangs and never aborts): no step faults, and a step is
refused only for an access width other than 4 bytes, a change of the key, or a drop of KEY_READY while
a command is pending or an operation is in progress (log entry 5 says where the model draws the line). -/
def Obligations.StepsStopOnlyByRefusal : Prop :=
  (∀ (s : State) (f : Fault), step s ≠ .fault f)
    ∧ (∀ (s : State) (r : Refusal), step s = .refused r →
      (∃ off n rest, n ≠ 4 ∧ r = .accessWidth n
        ∧ (s.schedule = .read (.block off) n :: rest
          ∨ ∃ v, s.schedule = .write (.block off) n v :: rest))
      ∨ (r = .keyChanged ∧ ∃ rest, s.schedule = .keyChange :: rest)
      ∨ (r = .keyDropWhilePending ∧ s.keyReady = true ∧ s.pend ≠ none
        ∧ ∃ rest, s.schedule = .keyReady false :: rest)
      ∨ (r = .keyDropInOperation ∧ s.keyReady = true ∧ s.pend = none ∧ s.inOperation = true
        ∧ ∃ rest, s.schedule = .keyReady false :: rest))

/-! ### The commands: where each completes, and with what state -/

/-- 40_absorb.md section 3, INIT: with a key, INIT completes in every phase. -/
def Obligations.InitStartsAbsorption : Prop :=
  ∀ (adp ptp : Bool) (s : State), s.keyReady = true →
    exec (.init adp ptp) s = .next { s with
      adp := adp
      ptp := ptp
      regV := Config.E (dsbBlock adp ptp)
      auth := .none
      absPhase := if adp then .ad else if ptp then .pt else .tagrdy
      pend := none
      irqPend := s.irqPend ||| 1 }

/-- 40_absorb.md section 3, ABS with FIN = 0: a full block of the current segment is chained, and nothing
but V, the slot and DONE changes. -/
def Obligations.AbsChainsFullBlock : Prop :=
  ∀ (seg : Segment) (s : State) (q : Pending), s.keyReady = true → s.pend = some q →
    s.absPhase = (if seg = .pt then .pt else .ad) →
    exec (.abs seg false 16) s = .next { s with
      regV := Config.E (s.regV ^^^ q.din)
      pend := none
      irqPend := s.irqPend ||| 1 }

/-- 40_absorb.md section 3, ABS with FIN = 1: the last 1 to 16 bytes are padded and doubled once, and the
segment's phase is left. -/
def Obligations.AbsFinishesSegment : Prop :=
  ∀ (seg : Segment) (r : Nat) (s : State) (q : Pending), 1 ≤ r → r ≤ 16 → s.keyReady = true →
    s.pend = some q → s.absPhase = (if seg = .pt then .pt else .ad) →
    exec (.abs seg true r) s = .next { s with
      regV := Config.E (dblBlock (s.regV ^^^ padBlock q.din r))
      absPhase := if s.absPhase = .ad ∧ s.ptp = true then .pt else .tagrdy
      pend := none
      irqPend := s.irqPend ||| 1 }

/-- 41_keystream.md section 2, KSEED: the tag or the supplied tag becomes the seed, with or without a
key; a running stream is not restarted (it is not in the hypotheses). -/
def Obligations.KseedLoadsSeed : Prop :=
  (∀ (s : State), s.ksPhase ≠ .krun → s.absPhase = .tagrdy →
      exec (.kseed .tag) s = .next { s with
        regS := s.regV
        ksPhase := .krun
        dout := 0
        pend := none
        irqPend := s.irqPend ||| 1 })
    ∧ (∀ (s : State) (q : Pending), s.ksPhase ≠ .krun → s.pend = some q →
      exec (.kseed .tagin) s = .next { s with
        regS := q.tagin
        ksPhase := .krun
        dout := 0
        pend := none
        irqPend := s.irqPend ||| 1 })

/-- 41_keystream.md section 2, KS: one cipher call, DOUT the first R bytes of `din XOR E(S)`, KDONE after
a final block. -/
def Obligations.KsAppliesKeystream : Prop :=
  ∀ (fin : Bool) (r : Nat) (s : State) (q : Pending), 1 ≤ r → r ≤ 16 → (fin = true ∨ r = 16) →
    s.keyReady = true → s.pend = some q → s.ksPhase = .krun →
    ∃ t, exec (.ks fin r) s = .next t
      ∧ t = { s with
        regS := Config.E s.regS
        dout := t.dout
        ksPhase := if fin then .kdone else .krun
        pend := none
        irqPend := s.irqPend ||| 1 }
      ∧ ∀ i, i < 16 → blockByte t.dout i =
        if i < r then blockByte q.din i ^^^ blockByte (Config.E s.regS) i else 0

/-- 41_keystream.md section 2, KSABS with FIN = 0: the recovered block is put out and chained. -/
def Obligations.KsabsChainsFullBlock : Prop :=
  ∀ (s : State) (q : Pending), s.keyReady = true → s.pend = some q → s.ksPhase = .krun →
    s.absPhase = .pt →
    exec (.ksabs false 16) s = .next { s with
      regS := Config.E s.regS
      dout := q.din ^^^ Config.E s.regS
      regV := Config.E (s.regV ^^^ (q.din ^^^ Config.E s.regS))
      pend := none
      irqPend := s.irqPend ||| 1 }

/-- 41_keystream.md section 2, KSABS with FIN = 1: the last 1 to 16 recovered bytes are put out, absorbed
in the final step, and both phases end together. -/
def Obligations.KsabsFinishesBoth : Prop :=
  ∀ (r : Nat) (s : State) (q : Pending), 1 ≤ r → r ≤ 16 → s.keyReady = true →
    s.pend = some q → s.ksPhase = .krun → s.absPhase = .pt →
    exec (.ksabs true r) s = .next { s with
      regS := Config.E s.regS
      dout := truncBlock (q.din ^^^ Config.E s.regS) r
      regV := Config.E (dblBlock
        (s.regV ^^^ padBlock (truncBlock (q.din ^^^ Config.E s.regS) r) r))
      absPhase := .tagrdy
      ksPhase := .kdone
      pend := none
      irqPend := s.irqPend ||| 1 }

/-- 42_control.md section 1, VERIFY: with a finished tag it completes, with or without a key: OK exactly
when all sixteen bytes agree, and else FAIL with DOUT zeroed and AUTHFAIL pending. -/
def Obligations.VerifyComparesTags : Prop :=
  ∀ (s : State) (q : Pending), s.pend = some q → s.absPhase = .tagrdy →
    ((∀ i, i < 16 → blockByte s.regV i = blockByte q.tagin i) →
      exec .verify s = .next { s with
        auth := .ok
        pend := none
        irqPend := s.irqPend ||| 1 })
    ∧ (∀ i, i < 16 → blockByte s.regV i ≠ blockByte q.tagin i →
      exec .verify s = .next { s with
        auth := .fail
        dout := 0
        pend := none
        irqPend := s.irqPend ||| 5 })

/-- 42_control.md section 1, CLEAR: in every state (busy, in the error state, without a key) it zeroises
the block but IRQ_EN and signals nothing; STATUS then shows KEY_READY alone, and ERR and IRQ_PEND read
0. -/
def Obligations.ClearZeroisesBlock : Prop :=
  ∀ s : State, ∃ t, exec .clear s = .next t
    ∧ t = { s with
      regV := 0
      regS := 0
      din := 0
      dout := 0
      tagin := 0
      absPhase := .idle
      ksPhase := .kidle
      adp := false
      ptp := false
      auth := .none
      pend := none
      errf := false
      cause := .none
      irqPend := 0 }
    ∧ busRead 0x08 t = (if s.keyReady then 0x00000800 else 0) ∧ busRead 0x0C t = 0
    ∧ busRead 0x14 t = 0

/-! ### Where a command is rejected -/

/-- R84: a length that is not 1 to 16, or not 16 with FIN = 0, and no other length, is BAD_LEN. -/
def Obligations.IllegalLengthIsBadLen : Prop :=
  ∀ (seg : Segment) (fin : Bool) (r : Nat) (s : State) (i : Instr),
    i = .abs seg fin r ∨ i = .ks fin r ∨ i = .ksabs fin r → s.errf = false → s.cause = .none →
    (¬ (1 ≤ r ∧ r ≤ 16 ∧ (fin = true ∨ r = 16)) →
      exec i s = .next { s with
        pend := none, errf := true, cause := .badLen, irqPend := s.irqPend ||| 2 })
    ∧ (1 ≤ r ∧ r ≤ 16 ∧ (fin = true ∨ r = 16) → ∃ t, exec i s = .next t ∧ t.cause ≠ .badLen)

/-- 60_exceptions.md section 1 (SEQUENCE): a command of legal length that its phases forbid is rejected,
whatever KEY_READY. -/
def Obligations.WrongPhaseIsSequence : Prop :=
  ∀ (s : State) (i : Instr), s.errf = false →
    ((∃ seg fin r, i = .abs seg fin r ∧ lenLegal fin r = true
        ∧ s.absPhase ≠ (if seg = .pt then .pt else .ad))
      ∨ (∃ src, i = .kseed src
        ∧ (s.ksPhase = .krun ∨ (src = .tag ∧ s.absPhase ≠ .tagrdy)))
      ∨ (∃ fin r, i = .ks fin r ∧ lenLegal fin r = true ∧ s.ksPhase ≠ .krun)
      ∨ (∃ fin r, i = .ksabs fin r ∧ lenLegal fin r = true
        ∧ (s.ksPhase ≠ .krun ∨ s.absPhase ≠ .pt))
      ∨ (i = .verify ∧ s.absPhase ≠ .tagrdy)) →
    exec i s = .next { s with
      pend := none, errf := true, cause := .sequence, irqPend := s.irqPend ||| 2 }

/-- 60_exceptions.md section 1 (NO_KEY): a command that calls the cipher and passes its other checks is
rejected while KEY_READY = 0, and its effect does not happen. -/
def Obligations.MissingKeyIsNoKey : Prop :=
  ∀ (s : State) (i : Instr), s.errf = false → s.keyReady = false →
    ((∃ a p, i = .init a p)
      ∨ (∃ seg fin r, i = .abs seg fin r ∧ lenLegal fin r = true
        ∧ s.absPhase = (if seg = .pt then .pt else .ad))
      ∨ (∃ fin r, i = .ks fin r ∧ lenLegal fin r = true ∧ s.ksPhase = .krun)
      ∨ (∃ fin r, i = .ksabs fin r ∧ lenLegal fin r = true ∧ s.ksPhase = .krun
        ∧ s.absPhase = .pt)) →
    exec i s = .next { s with
      pend := none, errf := true, cause := .noKey, irqPend := s.irqPend ||| 2 }

/-! ### Errors -/

/-- R191: a step that sets ERRF is the engine step of a rejected command or a CMD write rejected for
BUSY, and changes nothing but PEND (the engine step only), ERRF, CAUSE and IRQ_PEND.ERR. -/
def Obligations.ErrorsArePrecise : Prop :=
  ∀ s t : State, step s = .next t → s.errf = false → t.errf = true →
    (s.engineNext = true ∧ s.pend.isSome = true ∧ t.cause ≠ .none
      ∧ t = { s.advance with
        pend := none, errf := true, cause := t.cause, irqPend := s.irqPend ||| 2 })
    ∨ ((∃ off w rest, s.schedule = .write (.block off) 4 w :: rest ∧ registerAt off = .cmd
          ∧ w ≠ 0x00000007)
      ∧ s.pend.isSome = true
      ∧ t = { s.advance with errf := true, cause := .busy, irqPend := s.irqPend ||| 2 })

/-- 60_exceptions.md section 2 (the error state): while ERRF = 1 a CMD write other than CLEAR has no
effect and a pending command is discarded, every step keeps the first cause, and only CLEAR and
reset leave the state. -/
def Obligations.ErrorStateIsSticky : Prop :=
  ∀ s : State, s.errf = true →
    (∀ off w rest, s.schedule = .write (.block off) 4 w :: rest → registerAt off = .cmd →
      w ≠ 0x00000007 → step s = .next s.advance)
    ∧ (s.engineNext = true → step s = .next { s.advance with pend := none })
    ∧ (∀ t, step s = .next t → s.executes ≠ some .clear → s.schedule.head? ≠ some .reset →
      t.errf = true ∧ t.cause = s.cause ∧ t.regV = s.regV ∧ t.regS = s.regS ∧ t.dout = s.dout
        ∧ t.absPhase = s.absPhase ∧ t.ksPhase = s.ksPhase ∧ t.auth = s.auth)

/-- 60_exceptions.md section 3 (simultaneous events): the pending bits each step sets. -/
def Obligations.StepsSetPendingBits : Prop :=
  (∀ (s t : State) (q : Pending), s.engineNext = true → s.pend = some q → s.errf = false →
      step s = .next t →
      t.irqPend = s.irqPend ||| 1 ∧ t.errf = false
      ∨ t.irqPend = s.irqPend ||| 5 ∧ t.errf = false ∧ decode q.word = .ok .verify
        ∧ s.regV ≠ q.tagin
      ∨ t.irqPend = s.irqPend ||| 2 ∧ t.errf = true)
    ∧ (∀ (s t : State) off w rest, s.schedule = .write (.block off) 4 w :: rest →
      registerAt off = .cmd → step s = .next t →
      t.irqPend = s.irqPend ∨ t.irqPend = s.irqPend ||| 2 ∨ (w = 0x00000007 ∧ t.irqPend = 0))
    ∧ (∀ s t : State, s.engineNext = true → s.errf = true → step s = .next t →
      t.irqPend = s.irqPend)

/-- R157: the host's write to CMD, at each of the addresses that reach it. -/
def Obligations.CmdWriteAccepts : Prop :=
  ∀ (s : State) (off : BitVec 8) (w : Word) (rest : List Event), off &&& 0xFC = 0x04 →
    s.schedule = .write (.block off) 4 w :: rest →
    (w = 0x00000007 → step s = exec .clear s.advance)
    ∧ (w ≠ 0x00000007 → s.errf = true → step s = .next s.advance)
    ∧ (w ≠ 0x00000007 → s.errf = false → s.pend ≠ none →
      step s = .next { s.advance with
        errf := true, cause := .busy, irqPend := s.irqPend ||| 2 }
      ∧ ∀ t, step s = .next t → t.pend = s.pend
        ∧ engineStep t = .next { t with pend := none })
    ∧ (w ≠ 0x00000007 → s.errf = false → s.pend = none →
      step s = .next { s.advance with
        pend := some { word := w, din := s.din, tagin := s.tagin } })

/-! ### The register window -/

/-- R155: the host's write, by the word offset it reaches. -/
def Obligations.BusWriteByOffset : Prop :=
  ∀ (s : State) (off : BitVec 8) (v : Word) (rest : List Event),
    s.schedule = .write (decodeAddress (Config.BASE + off.toNat)) 4 v :: rest →
    (off &&& 0xFC = 0x04 → step s = cmdWrite v s.advance)
    ∧ (off &&& 0xFC = 0x10 → step s = .next { s.advance with irqEn := v.extractLsb' 0 3 })
    ∧ (off &&& 0xFC = 0x14 →
      step s = .next { s.advance with irqPend := s.irqPend &&& ~~~(v.extractLsb' 0 3) })
    ∧ (∀ k, k < 4 → (off &&& 0xFC).toNat = 0x20 + 4 * k →
      ∃ d, step s = .next { s.advance with din := d } ∧ ∀ i, i < 16 →
        blockByte d i = if i / 4 = k then v.extractLsb' (8 * (i % 4)) 8 else blockByte s.din i)
    ∧ (∀ k, k < 4 → (off &&& 0xFC).toNat = 0x50 + 4 * k →
      ∃ d, step s = .next { s.advance with tagin := d } ∧ ∀ i, i < 16 →
        blockByte d i = if i / 4 = k then v.extractLsb' (8 * (i % 4)) 8 else blockByte s.tagin i)
    ∧ ((off &&& 0xFC).toNat ∉ [0x04, 0x10, 0x14, 0x20, 0x24, 0x28, 0x2C, 0x50, 0x54, 0x58, 0x5C] →
      step s = .next s.advance)

/-- R156: the host's read, by the word offset it reaches: the value, and no side effect on the block. -/
def Obligations.BusReadByOffset : Prop :=
  ∀ (s : State) (off : BitVec 8) (rest : List Event),
    s.schedule = .read (decodeAddress (Config.BASE + off.toNat)) 4 :: rest →
    ∃ d : Word, step s = .next { s.advance with
        responses := s.responses ++ [{ off := off, data := d }] }
      ∧ (off &&& 0xFC = 0x00 → d = 0x53554E44)
      ∧ (off &&& 0xFC = 0x08 → d = s.status)
      ∧ (off &&& 0xFC = 0x0C → d = s.cause.code.setWidth 32)
      ∧ (off &&& 0xFC = 0x10 → d = s.irqEn.setWidth 32)
      ∧ (off &&& 0xFC = 0x14 → d = s.irqPend.setWidth 32)
      ∧ (∀ k, k < 4 → (off &&& 0xFC).toNat = 0x20 + 4 * k → d = blockWord s.din k)
      ∧ (∀ k, k < 4 → (off &&& 0xFC).toNat = 0x30 + 4 * k → d = blockWord s.dout k)
      ∧ (∀ k, k < 4 → (off &&& 0xFC).toNat = 0x40 + 4 * k →
        d = blockWord (if s.absPhase = .tagrdy then s.regV else 0) k)
      ∧ (∀ k, k < 4 → (off &&& 0xFC).toNat = 0x50 + 4 * k → d = blockWord s.tagin k)
      ∧ ((off &&& 0xFC = 0x04 ∨ off &&& 0xFC = 0x18 ∨ off &&& 0xFC = 0x1C
          ∨ 0x60 ≤ (off &&& 0xFC).toNat) → d = 0)

/-- R51: an access at a misaligned offset is the access at the word it lies in, and no word access
faults for its address. -/
def Obligations.MisalignedReachesWord : Prop :=
  (∀ (s : State) (off : BitVec 8) (v : Word),
      perform (.write (.block off) 4 v) s = perform (.write (.block (off &&& 0xFC)) 4 v) s
        ∧ busRead off s = busRead (off &&& 0xFC) s)
    ∧ (∀ (s : State) (a : Nat) (v : Word) (rest : List Event),
      s.schedule = .read (decodeAddress a) 4 :: rest
        ∨ s.schedule = .write (decodeAddress a) 4 v :: rest → ∃ t, step s = .next t)

/-- R54: reserved offsets, CMD and the bits marked so read 0; writes to reserved offsets and to
read-only registers change no state and record no error. -/
def Obligations.ReservedReadsZeroWritesIgnored : Prop :=
  (∀ (s : State) (off : BitVec 8),
      (off &&& 0xFC = 0x04 ∨ off &&& 0xFC = 0x18 ∨ off &&& 0xFC = 0x1C
        ∨ 0x60 ≤ (off &&& 0xFC).toNat → busRead off s = 0)
      ∧ (busRead 0x08 s).extractLsb' 12 20 = 0 ∧ (busRead 0x0C s).extractLsb' 4 28 = 0
      ∧ (busRead 0x10 s).extractLsb' 3 29 = 0 ∧ (busRead 0x14 s).extractLsb' 3 29 = 0)
    ∧ (∀ (s : State) (off : BitVec 8) (v : Word) (rest : List Event),
      s.schedule = .write (.block off) 4 v :: rest →
      ((off &&& 0xFC).toNat ∈ [0x00, 0x08, 0x0C, 0x18, 0x1C]
        ∨ (0x30 ≤ (off &&& 0xFC).toNat ∧ (off &&& 0xFC).toNat < 0x50)
        ∨ 0x60 ≤ (off &&& 0xFC).toNat) →
      step s = .next s.advance)

/-- R55: an access to the window of a width other than 32 bits is refused. -/
def Obligations.OtherWidthsRefused : Prop :=
  ∀ (s : State) (off : BitVec 8) (n : Nat) (v : Word) (rest : List Event), n ≠ 4 →
    (s.schedule = .read (.block off) n :: rest ∨ s.schedule = .write (.block off) n v :: rest) →
    step s = .refused (.accessWidth n)

/-- 20_memory.md section 1: which addresses reach the block; an access at any other address leaves it as
it is (the model's choice, log entry 4: "the block does not respond"). -/
def Obligations.WindowDecodesAddresses : Prop :=
  (∀ off : BitVec 8, decodeAddress (Config.BASE + off.toNat) = .block off)
    ∧ (∀ a : Nat, a < Config.BASE ∨ Config.BASE + 256 ≤ a → decodeAddress a = .elsewhere)
    ∧ (∀ (s : State) (n : Nat) (v : Word) (rest : List Event),
      s.schedule = .read .elsewhere n :: rest ∨ s.schedule = .write .elsewhere n v :: rest →
      step s = .next s.advance)

/-- 20_memory.md section 2: byte lanes: byte `4k+j` of a block register is bits `8j+7 : 8j` of word
`k`, and a block is determined by its four words. -/
def Obligations.ByteLanesAreLittleEndian : Prop :=
  (∀ (x : Block) (k j : Nat), k < 4 → j < 4 →
      (blockWord x k).extractLsb' (8 * j) 8 = blockByte x (4 * k + j))
    ∧ (∀ x y : Block, (∀ k, k < 4 → blockWord x k = blockWord y k) → x = y)
    ∧ (∀ (x : Block) (k : Nat) (v : Word), k < 4 → blockWord (setBlockWord x k v) k = v
      ∧ ∀ k', k' < 4 → k' ≠ k → blockWord (setBlockWord x k v) k' = blockWord x k')

/-- R35: the fields of STATUS; a write to it is ignored. -/
def Obligations.StatusFields : Prop :=
  (∀ s : State,
      busRead 0x08 s = s.status
      ∧ (s.status.getLsbD 0 = true ↔ s.pend ≠ none)
      ∧ s.status.getLsbD 1 = s.errf
      ∧ (s.status.getLsbD 2 = true ↔ s.absPhase = .tagrdy)
      ∧ s.status.extractLsb' 3 2 = (match s.auth with | .none => 0 | .ok => 1 | .fail => 2)
      ∧ s.status.extractLsb' 5 2 =
        (match s.absPhase with | .idle => 0 | .ad => 1 | .pt => 2 | .tagrdy => 3)
      ∧ s.status.extractLsb' 7 2 =
        (match s.ksPhase with | .kidle => 0 | .krun => 1 | .kdone => 2)
      ∧ s.status.getLsbD 9 = s.adp ∧ s.status.getLsbD 10 = s.ptp
      ∧ s.status.getLsbD 11 = s.keyReady ∧ s.status.extractLsb' 12 20 = 0)
    ∧ (∀ (s : State) (off : BitVec 8) (v : Word) (rest : List Event), off &&& 0xFC = 0x08 →
      s.schedule = .write (.block off) 4 v :: rest → step s = .next s.advance)

/-- 60_exceptions.md section 3: the line is 1 exactly when an enabled source is pending, so only a step
that changes IRQ_EN or IRQ_PEND can change it. -/
def Obligations.IrqLineIsEnabledPending : Prop :=
  (∀ s : State, s.irq = true ↔ s.irqEn &&& s.irqPend ≠ 0)
    ∧ (∀ s t : State, step s = .next t → t.irq ≠ s.irq →
      t.irqEn ≠ s.irqEn ∨ t.irqPend ≠ s.irqPend)

/-- 10_state.md section 2 and section 6: no read shows S or the pending slot's contents, nor V before the tag is complete. -/
def Obligations.SecretsAreNotReadable : Prop :=
  ∀ (s : State) (off : BitVec 8) (x : Block) (q q' : Pending),
    busRead off { s with regS := x } = busRead off s
    ∧ (s.absPhase ≠ .tagrdy → busRead off { s with regV := x } = busRead off s)
    ∧ busRead off { s with pend := some q } = busRead off { s with pend := some q' }

/-! ### The functions of the absorption engine -/

/-- R10: the integer of a block is big-endian in its bytes, and `blk` is its inverse. -/
def Obligations.BlockIntegerIsBigEndian : Prop :=
  (∀ b : Block, b.toNat = ∑ i ∈ Finset.range 16, (blockByte b i).toNat * 2 ^ (8 * (15 - i)))
    ∧ (∀ (b : Block) (i j : Nat), i < 16 → j < 8 →
      (blockByte b i).getLsbD j = b.getLsbD (8 * (15 - i) + j))
    ∧ (∀ b : Block, BitVec.ofNat 128 b.toNat = b)
    ∧ (∀ n : Nat, n < 2 ^ 128 → (BitVec.ofNat 128 n : Block).toNat = n)

/-- R100: padding, byte by byte; only the first R bytes are read, and a full block is not padded. -/
def Obligations.PaddingBytes : Prop :=
  (∀ (b : Block) (r i : Nat), 1 ≤ r → r ≤ 16 → i < 16 →
      blockByte (padBlock b r) i = if i < r then blockByte b i else if i = r then 0x80 else 0x00)
    ∧ (∀ (b b' : Block) (r : Nat), 1 ≤ r → r ≤ 16 →
      (∀ i, i < r → blockByte b i = blockByte b' i) → padBlock b r = padBlock b' r)
    ∧ (∀ b : Block, padBlock b 16 = b)

/-- R102: doubling, on the integer and in bytes. -/
def Obligations.DoublingIsTimesX : Prop :=
  ∀ x : Block,
    (dblBlock x).toNat =
      (if 2 ^ 127 ≤ x.toNat then (2 * x.toNat % 2 ^ 128) ^^^ 0x87 else 2 * x.toNat % 2 ^ 128)
    ∧ (∀ i, i < 15 → blockByte (dblBlock x) i =
      ((blockByte x i) <<< 1) ||| ((blockByte x (i + 1)) >>> 7))
    ∧ blockByte (dblBlock x) 15 =
      ((blockByte x 15) <<< 1) ^^^ (if (blockByte x 0).getLsbD 7 then 0x87 else 0)

/-- R103: the domain-separation block, byte by byte; the four blocks are pairwise distinct. -/
def Obligations.DsbBytesAndDistinct : Prop :=
  (∀ (adp ptp : Bool),
      blockByte (dsbBlock adp ptp) 0 = (if adp then 0x80 else 0) ||| (if ptp then 0x40 else 0)
      ∧ ∀ i, 1 ≤ i → i ≤ 15 → blockByte (dsbBlock adp ptp) i = 0x00)
    ∧ (∀ a p a' p' : Bool, dsbBlock a p = dsbBlock a' p' → a = a' ∧ p = p')

/-- R101: the bytes of a DIN snapshot at and above R have no effect on any command that takes R. -/
def Obligations.BytesBeyondLengthIgnored : Prop :=
  ∀ (seg : Segment) (fin : Bool) (r : Nat) (s : State) (q : Pending) (d : Block) (i : Instr),
    i = .abs seg fin r ∨ i = .ks fin r ∨ i = .ksabs fin r → s.pend = some q →
    (∀ k, k < r → k < 16 → blockByte d k = blockByte q.din k) →
    exec i { s with pend := some { q with din := d } } = exec i s

/-- R61: a command computes with its snapshot: writing DIN or TAGIN after its acceptance changes nothing
of what it does. -/
def Obligations.CommandsUseTheirSnapshot : Prop :=
  ∀ (s : State) (i : Instr) (q : Pending) (x y : Block), s.pend = some q → i ≠ .clear →
    ∃ t, exec i s = .next t
      ∧ exec i { s with din := x, tagin := y } = .next { t with din := x, tagin := y }

/-! ### Command sequences and the golden functions -/

/-- 40_absorb.md section 2 and 41_keystream.md section 1: the golden functions are the loops of their
pseudocode: while more than 16 bytes remain a full block, and then the final block once. -/
def Obligations.GoldenLoopsFollowPseudocode : Prop :=
  (∀ (E : Block → Block) (seg : List Byte) (v : Block), seg ≠ [] →
      absorb E seg v =
        if 16 < seg.length then absorb E (seg.drop 16) (E (v ^^^ blockOfBytes (seg.take 16)))
        else E (dblBlock (v ^^^ padBlock (blockOfBytes seg) seg.length)))
    ∧ (∀ (E : Block → Block) (s : Block), ofb E s [] = ([], s))
    ∧ (∀ (E : Block → Block) (buf : List Byte) (s : Block), buf ≠ [] →
      ofb E s buf =
        if 16 < buf.length then
          (xorBytes (buf.take 16) (E s) ++ (ofb E (E s) (buf.drop 16)).1,
            (ofb E (E s) (buf.drop 16)).2)
        else (xorBytes buf (E s), E s))

/-- R106: the tag of two empty segments is the encryption of the all-zero block, in the golden function
and in the block. -/
def Obligations.EmptyTagIsEncryptedZero : Prop :=
  (∀ E : Block → Block, mac E [] [] = E (dsbBlock false false) ∧ mac E [] [] = E 0)
    ∧ (∀ s : State, s.keyReady = true →
      ∃ t, exec (.init false false) s = .next t ∧ t.absPhase = .tagrdy
        ∧ t.tagView = Config.E 0)

/-- R112: in every interleaving with the engine steps, `absorb SEG, seg` leaves `V = Absorb(seg, V_before)`, and
INIT followed by the present segments leaves TAGRDY and `V = MAC(A, P)`; nothing of the keystream
side, TAGIN, IRQ_EN or the rest of the interleaving changes. -/
def Obligations.AbsorbSequencesComputeMac : Prop :=
  (∀ (onError : Option Bool) (seg : Segment) (fill : Block) (bytes : List Byte) (s : State),
      bytes ≠ [] → s.pend = none → s.errf = false → s.keyReady = true →
      s.absPhase = (if seg = .pt then .pt else .ad) →
      (absorbSeq onError seg fill bytes (.ret true)).Ends s fun t r => r = true
        ∧ t.regV = absorb Config.E bytes s.regV
        ∧ t.absPhase = (if seg = .ad ∧ s.ptp = true then .pt else .tagrdy)
        ∧ t.pend = none ∧ t.errf = false ∧ t.keyReady = true ∧ t.ptp = s.ptp
        ∧ t.regS = s.regS ∧ t.ksPhase = s.ksPhase ∧ t.dout = s.dout ∧ t.tagin = s.tagin
        ∧ t.irqEn = s.irqEn ∧ t.schedule = s.schedule)
    ∧ (∀ (onError : Option Bool) (f : Fills) (ad pt : List Byte) (s : State),
      s.pend = none → s.errf = false → s.keyReady = true →
      (doCmd onError (.init (present ad) (present pt)) <|
        absorbIfPresent onError .ad f.ad ad <|
        absorbIfPresent onError .pt f.pt pt (.ret true)).Ends s fun t r => r = true
        ∧ t.absPhase = .tagrdy ∧ t.regV = mac Config.E ad pt
        ∧ t.pend = none ∧ t.errf = false ∧ t.keyReady = true
        ∧ t.regS = s.regS ∧ t.ksPhase = s.ksPhase ∧ t.dout = s.dout ∧ t.tagin = s.tagin
        ∧ t.irqEn = s.irqEn ∧ t.schedule = s.schedule)

/-- R135: in every interleaving with the engine steps, `stream KS, buf` after a seed `T` returns `OFB(T, buf).out`
and leaves `S = OFB(T, buf).S`; with KSABS in phase PT it returns the same bytes and leaves
`V = Absorb(OFB(T, buf).out, V0)`. -/
def Obligations.StreamSequencesComputeOfb : Prop :=
  (∀ (fill : Block) (buf : List Byte) (s : State) (src : SeedSource), buf ≠ [] →
      s.pend = none → s.errf = false → s.keyReady = true → s.ksPhase ≠ .krun →
      (src = .tag → s.absPhase = .tagrdy) →
      (doCmd none (.kseed src) <| streamSeq none .ks fill buf .ret).Ends s fun t out =>
        out = (ofb Config.E (if src = .tag then s.regV else s.tagin) buf).1
        ∧ t.regS = (ofb Config.E (if src = .tag then s.regV else s.tagin) buf).2
        ∧ t.ksPhase = .kdone ∧ t.regV = s.regV ∧ t.absPhase = s.absPhase
        ∧ t.pend = none ∧ t.errf = false ∧ t.schedule = s.schedule)
    ∧ (∀ (fill : Block) (buf : List Byte) (s : State), buf ≠ [] →
      s.pend = none → s.errf = false → s.keyReady = true → s.ksPhase ≠ .krun →
      s.absPhase = .pt →
      (doCmd none (.kseed .tagin) <| streamSeq none .ksabs fill buf .ret).Ends s fun t out =>
        out = (ofb Config.E s.tagin buf).1
        ∧ t.regS = (ofb Config.E s.tagin buf).2
        ∧ t.regV = absorb Config.E (ofb Config.E s.tagin buf).1 s.regV
        ∧ t.ksPhase = .kdone ∧ t.absPhase = .tagrdy
        ∧ t.pend = none ∧ t.errf = false ∧ t.schedule = s.schedule)

/-- 45_host_protocol.md sections 2 and 3, encryption: in every interleaving with the engine steps, and whatever
the padding bytes, the host's sequence returns exactly `Encrypt(A, P)` and leaves the block as CLEAR
does. Where it stops because ERR is set, it ends without a result: without a key or in the error state
at its first command (60_exceptions.md sections 1 and 2, 42_control.md section 3), and with a keystream
still running at KSEED TAG, with the tag computed and SEQUENCE recorded. That the stopped program ends
at the STATUS read that ends its wait, and issues no CLEAR, is the model's choice (log entry 15,
DEDUCED). -/
def Obligations.EncryptSequenceEncrypts : Prop :=
  ∀ (f : Fills) (ad pt : List Byte) (s : State), s.pend = none →
    (s.errf = false → s.keyReady = true → (pt ≠ [] → s.ksPhase ≠ .krun) →
      (encryptSeq f ad pt).Ends s fun t r => r = some (encrypt Config.E ad pt)
        ∧ t = { s.clearBlock with responses := t.responses })
    ∧ (s.errf = false → s.keyReady = true → pt ≠ [] → s.ksPhase = .krun →
      (encryptSeq f ad pt).Ends s fun t r => r = none
        ∧ t.errf = true ∧ t.cause = .sequence ∧ t.pend = none
        ∧ t.absPhase = .tagrdy ∧ t.regV = mac Config.E ad pt
        ∧ t.regS = s.regS ∧ t.ksPhase = .krun ∧ t.dout = s.dout ∧ t.tagin = s.tagin
        ∧ t.irqEn = s.irqEn ∧ t.keyReady = true ∧ t.schedule = s.schedule)
    ∧ (s.errf = false → s.keyReady = false →
      (encryptSeq f ad pt).Ends s fun t r => r = none
        ∧ t = { s with
          errf := true, cause := .noKey, irqPend := s.irqPend ||| 2, responses := t.responses })
    ∧ (s.errf = true →
      (encryptSeq f ad pt).Ends s fun t r => r = none
        ∧ t = { s with responses := t.responses })

/-- 45_host_protocol.md sections 2 and 3, decryption: in every interleaving with the engine steps, whatever the
padding bytes, and with KSEED after or before INIT, the host's sequence returns exactly
`Decrypt(A, C, T)` and leaves the block as CLEAR does. -/
def Obligations.DecryptSequenceDecrypts : Prop :=
  ∀ (seedFirst : Bool) (f : Fills) (ad ct : List Byte) (tag : Block) (s : State),
    s.pend = none → s.errf = false → s.keyReady = true → (ct ≠ [] → s.ksPhase ≠ .krun) →
    (decryptSeq seedFirst f ad ct tag).Ends s fun t r => r = decrypt Config.E ad ct tag
      ∧ t = { s.clearBlock with responses := t.responses }

/-- R175: the combined output is the ciphertext and then the sixteen bytes of the tag in TAG-view byte order,
`|P| + 16` bytes in all, with no byte of the padding; and the TAG words show that order. -/
def Obligations.CombinedOutputAppendsTag : Prop :=
  (∀ (E : Block → Block) (ad pt : List Byte),
      (encrypt E ad pt).1.length = pt.length
      ∧ (combinedOutput (encrypt E ad pt)).length = pt.length + 16
      ∧ (combinedOutput (encrypt E ad pt)).take pt.length = (encrypt E ad pt).1
      ∧ ∀ i, i < 16 →
        (combinedOutput (encrypt E ad pt))[pt.length + i]? = some (blockByte (encrypt E ad pt).2 i))
    ∧ (∀ (s : State) (k j : Nat), k < 4 → j < 4 → s.absPhase = .tagrdy →
      (busRead (BitVec.ofNat 8 (0x40 + 4 * k)) s).extractLsb' (8 * j) 8
        = blockByte s.regV (4 * k + j))

/-- 45_host_protocol.md section 3: for every cipher, decryption returns what was encrypted, and the
ciphertext has the plaintext's length. -/
def Obligations.DecryptUndoesEncrypt : Prop :=
  ∀ (E : Block → Block) (ad pt : List Byte),
    decrypt E ad (encrypt E ad pt).1 (encrypt E ad pt).2 = some pt
    ∧ (encrypt E ad pt).1.length = pt.length

/-! ### Invariants and whole-machine rules -/

/-- 10_state.md sections 5 and 6: the invariants hold after reset, at each level of KEY_READY and for
every interleaving to come. -/
def Obligations.InvariantsHoldAtReset : Prop :=
  State.reset.Inv ∧ ∀ (k : Bool) (es : List Event) (rs : List Response),
    ({ State.reset with keyReady := k, schedule := es, responses := rs } : State).Inv

/-- 10_state.md section 6 (a) to (e), with the slot's invariant of 60_exceptions.md section 1: every
atomic step keeps them. -/
def Obligations.StepKeepsInvariants : Prop :=
  ∀ s t : State, s.Inv → step s = .next t → t.Inv

/-- 10_state.md section 6 (f): only an INIT that executes leaves ABS_PHASE = IDLE. -/
def Obligations.OnlyInitLeavesIdle : Prop :=
  ∀ s t : State, step s = .next t → s.absPhase = .idle → t.absPhase ≠ .idle →
    ∃ a p, s.executes = some (.init a p)

/-- 10_state.md section 2: the only steps that change V are those that execute INIT, ABS, KSABS or CLEAR,
and reset; V, the TAG view and TAGRDY stay, once the tag is complete, until INIT, CLEAR or reset. -/
def Obligations.OnlyAbsorptionChangesV : Prop :=
  (∀ s t : State, step s = .next t → t.regV ≠ s.regV →
      (∃ a p, s.executes = some (.init a p)) ∨ (∃ g f r, s.executes = some (.abs g f r))
      ∨ (∃ f r, s.executes = some (.ksabs f r)) ∨ s.executes = some .clear
      ∨ s.schedule.head? = some .reset)
    ∧ (∀ s t : State, step s = .next t → s.absPhase = .tagrdy →
      (t.absPhase ≠ .tagrdy ∨ t.regV ≠ s.regV ∨ t.tagView ≠ s.tagView) →
      (∃ a p, s.executes = some (.init a p)) ∨ s.executes = some .clear
      ∨ s.schedule.head? = some .reset)

/-- 10_state.md section 2: the only steps that change S are those that execute KSEED, KS, KSABS or CLEAR,
and reset. -/
def Obligations.OnlyKeystreamChangesS : Prop :=
  ∀ s t : State, step s = .next t → t.regS ≠ s.regS →
    (∃ c, s.executes = some (.kseed c)) ∨ (∃ f r, s.executes = some (.ks f r))
    ∨ (∃ f r, s.executes = some (.ksabs f r)) ∨ s.executes = some .clear
    ∨ s.schedule.head? = some .reset

/-- 10_state.md section 2: DOUT changes only by KSEED, KS, KSABS, a failing VERIFY, CLEAR and reset; DIN
and TAGIN only by a host write that reaches them, CLEAR and reset. -/
def Obligations.OnlyTheseChangeDataRegisters : Prop :=
  (∀ s t : State, step s = .next t → t.dout ≠ s.dout →
      (∃ c, s.executes = some (.kseed c)) ∨ (∃ f r, s.executes = some (.ks f r))
      ∨ (∃ f r, s.executes = some (.ksabs f r))
      ∨ (s.executes = some .verify ∧ t.auth = .fail) ∨ s.executes = some .clear
      ∨ s.schedule.head? = some .reset)
    ∧ (∀ s t : State, step s = .next t → t.din ≠ s.din →
      (∃ off v k, s.schedule.head? = some (.write (.block off) 4 v) ∧ registerAt off = .din k)
      ∨ s.executes = some .clear ∨ s.schedule.head? = some .reset)
    ∧ (∀ s t : State, step s = .next t → t.tagin ≠ s.tagin →
      (∃ off v k, s.schedule.head? = some (.write (.block off) 4 v) ∧ registerAt off = .tagin k)
      ∨ s.executes = some .clear ∨ s.schedule.head? = some .reset)

/-- 10_state.md section 3: every change of ABS_PHASE and of KS_PHASE is one of the listed transitions. -/
def Obligations.PhasesMoveAsListed : Prop :=
  (∀ s t : State, step s = .next t → t.absPhase ≠ s.absPhase →
      (∃ a p, s.executes = some (.init a p)
        ∧ t.absPhase = if a then .ad else if p then .pt else .tagrdy)
      ∨ (∃ r, s.executes = some (.abs .ad true r) ∧ s.absPhase = .ad
        ∧ t.absPhase = if s.ptp then .pt else .tagrdy)
      ∨ (∃ r, s.executes = some (.abs .pt true r) ∧ s.absPhase = .pt ∧ t.absPhase = .tagrdy)
      ∨ (∃ r, s.executes = some (.ksabs true r) ∧ s.absPhase = .pt ∧ t.absPhase = .tagrdy)
      ∨ ((s.executes = some .clear ∨ s.schedule.head? = some .reset) ∧ t.absPhase = .idle))
    ∧ (∀ s t : State, step s = .next t → t.ksPhase ≠ s.ksPhase →
      (∃ c, s.executes = some (.kseed c) ∧ t.ksPhase = .krun)
      ∨ (∃ r, (s.executes = some (.ks true r) ∨ s.executes = some (.ksabs true r))
        ∧ s.ksPhase = .krun ∧ t.ksPhase = .kdone)
      ∨ ((s.executes = some .clear ∨ s.schedule.head? = some .reset) ∧ t.ksPhase = .kidle))

/-- R215: reset is one step that sets every piece of the block's state to its reset value; the key
loader's KEY_READY stays, and `irq` is 0; the state at power-up, `State.reset`, has the same values. -/
def Obligations.ResetSetsEveryRegister : Prop :=
  (∀ (s : State) (rest : List Event), s.schedule = .reset :: rest →
      ∃ t, step s = .next t ∧ t.irq = false
        ∧ t = { regV := 0, regS := 0, din := 0, dout := 0, tagin := 0, absPhase := .idle,
                ksPhase := .kidle, adp := false, ptp := false, pend := none, auth := .none,
                errf := false, cause := .none, irqEn := 0, irqPend := 0, keyReady := s.keyReady,
                schedule := rest, responses := s.responses })
    ∧ (State.reset.irq = false
      ∧ State.reset = { regV := 0, regS := 0, din := 0, dout := 0, tagin := 0, absPhase := .idle,
                        ksPhase := .kidle, adp := false, ptp := false, pend := none,
                        auth := .none, errf := false, cause := .none, irqEn := 0, irqPend := 0,
                        keyReady := State.reset.keyReady, schedule := State.reset.schedule,
                        responses := State.reset.responses })

/-- R216: reset and CLEAR differ only in IRQ_EN, and after either the block waits for host accesses: the
slot is empty and the engine does nothing. -/
def Obligations.ResetAndClearDifferInIrqEn : Prop :=
  ∀ s : State, ∃ t u, exec .clear s = .next t ∧ perform .reset s = .next u
    ∧ u = { t with irqEn := 0 } ∧ t.irqEn = s.irqEn
    ∧ t.pend = none ∧ u.pend = none ∧ engineStep t = .next t ∧ engineStep u = .next u

/-- 70_reset_and_hazards.md section 2 (log entry 5 says where the model draws the line): KEY_READY follows the key
loader between operations and may rise at any time; a drop while a command is pending or an
operation is in progress, and a change of the key, are refused; so an operation keeps its key until the
tag is complete, and with a plaintext segment until CLEAR, reset, an error or the next INIT. -/
def Obligations.KeyChangesAdmitted : Prop :=
  (∀ (s : State) (k : Bool) (rest : List Event), s.schedule = .keyReady k :: rest →
      (k = true ∨ s.keyReady = false ∨ (s.pend = none ∧ s.inOperation = false)) →
      step s = .next { s.advance with keyReady := k })
    ∧ (∀ (s : State) (rest : List Event), s.schedule = .keyReady false :: rest →
      s.keyReady = true → s.pend ≠ none → step s = .refused .keyDropWhilePending)
    ∧ (∀ (s : State) (rest : List Event), s.schedule = .keyReady false :: rest →
      s.keyReady = true → s.pend = none → s.errf = false →
      (s.absPhase = .ad ∨ s.absPhase = .pt
        ∨ (s.absPhase = .tagrdy ∧ (s.ptp = true ∨ s.ksPhase = .krun))) →
      step s = .refused .keyDropInOperation)
    ∧ (∀ s : State, (s.errf = true ∨ s.absPhase = .idle
        ∨ (s.absPhase = .tagrdy ∧ s.ptp = false ∧ s.ksPhase ≠ .krun)) → s.inOperation = false)
    ∧ (∀ (s : State) (rest : List Event), s.schedule = .keyChange :: rest →
      step s = .refused .keyChanged)
    ∧ (∀ s t : State, s.keyHeld → step s = .next t → t.keyHeld)
end

