-- ==== Sys2Proof/Laws/Blocks.lean ====
section
/-! SUPPORT. The bytes of a block: reading a block built from its bytes, equality by bytes, and the bytes of
the operations on blocks. -/

namespace Sys2Proof.Machine

/-- A bit below the seam of two joined vectors is a bit of the lower one. -/
theorem append_getLsbD_low {m n : Nat} (x : BitVec m) (y : BitVec n) (i : Nat) (h : i < n) :
    (x ++ y).getLsbD i = y.getLsbD i := by
  simp [BitVec.getLsbD_append, h]

/-- A bit at or above the seam of two joined vectors is a bit of the upper one. -/
theorem append_getLsbD_high {m n : Nat} (x : BitVec m) (y : BitVec n) (i : Nat) (h : n ≤ i) :
    (x ++ y).getLsbD i = x.getLsbD (i - n) := by
  simp [BitVec.getLsbD_append, Nat.not_lt.mpr h]

theorem blockByte_getLsbD (b : Block) (i j : Nat) (hj : j < 8) :
    (blockByte b i).getLsbD j = b.getLsbD (8 * (15 - i) + j) := by
  simp [blockByte, hj]

/-- Bit `j` of byte `i` of a block built from its bytes. -/
theorem blockOfFn_getLsbD (f : Nat → Byte) (i j : Nat) (hi : i < 16) (hj : j < 8) :
    (blockOfFn f).getLsbD (8 * (15 - i) + j) = (f i).getLsbD j := by
  unfold blockOfFn
  interval_cases i <;>
    simp (disch := omega) only [append_getLsbD_low, append_getLsbD_high] <;>
    refine congrArg (BitVec.getLsbD _) ?_ <;> omega

/-- R9: a block built from the bytes `f 0 .. f 15` has those bytes. -/
theorem blockByte_blockOfFn (f : Nat → Byte) (i : Nat) (hi : i < 16) :
    blockByte (blockOfFn f) i = f i := by
  apply BitVec.eq_of_getLsbD_eq
  intro j hj
  rw [blockByte_getLsbD _ _ _ hj, blockOfFn_getLsbD f i j hi hj]

/-- R9: a block is its sixteen bytes. -/
theorem block_ext_bytes (a b : Block) (h : ∀ i, i < 16 → blockByte a i = blockByte b i) :
    a = b := by
  apply BitVec.eq_of_getLsbD_eq
  intro k hk
  have hb := congrArg (BitVec.getLsbD · (k % 8)) (h (15 - k / 8) (by omega))
  simp only [blockByte_getLsbD _ _ _ (Nat.mod_lt k (by omega : 0 < 8))] at hb
  have hk' : 8 * (15 - (15 - k / 8)) + k % 8 = k := by omega
  simpa only [hk'] using hb

/-- A block is rebuilt from its own bytes. -/
theorem blockOfFn_blockByte (b : Block) : blockOfFn (blockByte b) = b :=
  block_ext_bytes _ _ fun i hi => blockByte_blockOfFn _ i hi

/-- Only the first sixteen values matter. -/
theorem blockOfFn_congr (f g : Nat → Byte) (h : ∀ i, i < 16 → f i = g i) :
    blockOfFn f = blockOfFn g :=
  block_ext_bytes _ _ fun i hi => by rw [blockByte_blockOfFn f i hi, blockByte_blockOfFn g i hi, h i hi]

/-- R9: XOR is bytewise. -/
theorem blockByte_xor (a b : Block) (i : Nat) :
    blockByte (a ^^^ b) i = blockByte a i ^^^ blockByte b i := by
  apply BitVec.eq_of_getLsbD_eq
  intro j hj
  simp [blockByte_getLsbD _ _ _ hj]

theorem blockByte_zero (i : Nat) : blockByte 0 i = 0 := by
  apply BitVec.eq_of_getLsbD_eq
  intro j hj
  simp [blockByte_getLsbD _ _ _ hj]

/-- R9: the bytes of `trunc(b, R)`. -/
theorem blockByte_truncBlock (b : Block) (r i : Nat) (hi : i < 16) :
    blockByte (truncBlock b r) i = if i < r then blockByte b i else 0 :=
  blockByte_blockOfFn _ i hi

/-- R9: a full block is not truncated. -/
theorem truncBlock_full (b : Block) : truncBlock b 16 = b :=
  block_ext_bytes _ _ fun i hi => by simp [blockByte_truncBlock b 16 i hi, hi]

/-- R9: the bytes of the block of a sequence. -/
theorem blockByte_blockOfBytes (l : List Byte) (i : Nat) (hi : i < 16) :
    blockByte (blockOfBytes l) i = l.getD i 0 :=
  blockByte_blockOfFn _ i hi

@[simp] theorem length_bytesOfBlock (b : Block) : (bytesOfBlock b).length = 16 := by
  simp [bytesOfBlock]

theorem getElem_bytesOfBlock (b : Block) (i : Nat) (hi : i < 16) :
    (bytesOfBlock b)[i]'(by simpa using hi) = blockByte b i := by
  simp [bytesOfBlock]

/-- The bytes of a block make the block. -/
theorem blockOfBytes_bytesOfBlock (b : Block) : blockOfBytes (bytesOfBlock b) = b :=
  block_ext_bytes _ _ fun i hi => by
    rw [blockByte_blockOfBytes _ i hi, List.getD_eq_getElem _ _ (by simpa using hi),
      getElem_bytesOfBlock b i hi]

/-- R100, R101: padding reads only the first R bytes. -/
theorem padBlock_congr (b b' : Block) (r : Nat)
    (h : ∀ i, i < r → i < 16 → blockByte b i = blockByte b' i) : padBlock b r = padBlock b' r := by
  refine blockOfFn_congr _ _ fun i hi => ?_
  by_cases hr : i < r
  · simp [hr, h i hr hi]
  · simp [hr]

/-- R100, R134: padding what `trunc` has cut to the same length. -/
theorem padBlock_truncBlock (b : Block) (r : Nat) : padBlock (truncBlock b r) r = padBlock b r :=
  padBlock_congr _ _ r fun i hr hi => by rw [blockByte_truncBlock b r i hi, if_pos hr]

/-- R53: byte `j` of word `k` of a block register. -/
theorem wordByte_blockWord (x : Block) (k j : Nat) (hj : j < 4) :
    wordByte (blockWord x k) j = blockByte x (4 * k + j) := by
  apply BitVec.eq_of_getLsbD_eq
  intro b hb
  simp only [wordByte, blockWord, BitVec.getLsbD_extractLsb', BitVec.getLsbD_or,
    BitVec.getLsbD_setWidth, BitVec.getLsbD_shiftLeft, hb, decide_true, Bool.true_and]
  interval_cases j <;> interval_cases b <;> simp [BitVec.getLsbD_of_ge]

/-- R53: the bytes of a block register after a write of one of its words. -/
theorem blockByte_setBlockWord (x : Block) (k : Nat) (v : Word) (i : Nat) (hi : i < 16) :
    blockByte (setBlockWord x k v) i = if i / 4 = k then wordByte v (i % 4) else blockByte x i :=
  blockByte_blockOfFn _ i hi

/-- R53, R88 (`ldblk`): writing the four words of a block gives the block. -/
theorem setBlockWord_all (x b : Block) :
    setBlockWord (setBlockWord (setBlockWord (setBlockWord x 0 (blockWord b 0)) 1 (blockWord b 1)) 2
      (blockWord b 2)) 3 (blockWord b 3) = b := by
  refine block_ext_bytes _ _ fun i hi => ?_
  simp only [blockByte_setBlockWord _ _ _ i hi]
  have hw : ∀ k, wordByte (blockWord b k) (i % 4) = blockByte b (4 * k + i % 4) :=
    fun k => wordByte_blockWord b k (i % 4) (Nat.mod_lt _ (by omega))
  simp only [hw]
  split_ifs <;> (congr 1; omega)

/-- R53, R88 (`rdblk`): the four words of a block register hold its sixteen bytes in order. -/
theorem bytesOfBlock_eq_words (b : Block) :
    bytesOfBlock b = (List.range 4).flatMap fun k =>
      [wordByte (blockWord b k) 0, wordByte (blockWord b k) 1, wordByte (blockWord b k) 2,
        wordByte (blockWord b k) 3] := by
  simp [bytesOfBlock, List.range_succ, wordByte_blockWord]

end Sys2Proof.Machine
end

