-- ==== Sys2Proof/Laws/State.lean ====
section
/-! SUPPORT. The fields of the state after each shared operation, one lemma per field per operation, all true
by rfl. -/

namespace Sys2Proof.Machine

@[simp] theorem State.raiseIrq_regV (s : State) (b : BitVec 3) :
    (s.raiseIrq b).regV = s.regV := rfl
@[simp] theorem State.raiseIrq_regS (s : State) (b : BitVec 3) :
    (s.raiseIrq b).regS = s.regS := rfl
@[simp] theorem State.raiseIrq_din (s : State) (b : BitVec 3) :
    (s.raiseIrq b).din = s.din := rfl
@[simp] theorem State.raiseIrq_dout (s : State) (b : BitVec 3) :
    (s.raiseIrq b).dout = s.dout := rfl
@[simp] theorem State.raiseIrq_tagin (s : State) (b : BitVec 3) :
    (s.raiseIrq b).tagin = s.tagin := rfl
@[simp] theorem State.raiseIrq_absPhase (s : State) (b : BitVec 3) :
    (s.raiseIrq b).absPhase = s.absPhase := rfl
@[simp] theorem State.raiseIrq_ksPhase (s : State) (b : BitVec 3) :
    (s.raiseIrq b).ksPhase = s.ksPhase := rfl
@[simp] theorem State.raiseIrq_adp (s : State) (b : BitVec 3) :
    (s.raiseIrq b).adp = s.adp := rfl
@[simp] theorem State.raiseIrq_ptp (s : State) (b : BitVec 3) :
    (s.raiseIrq b).ptp = s.ptp := rfl
@[simp] theorem State.raiseIrq_pend (s : State) (b : BitVec 3) :
    (s.raiseIrq b).pend = s.pend := rfl
@[simp] theorem State.raiseIrq_auth (s : State) (b : BitVec 3) :
    (s.raiseIrq b).auth = s.auth := rfl
@[simp] theorem State.raiseIrq_errf (s : State) (b : BitVec 3) :
    (s.raiseIrq b).errf = s.errf := rfl
@[simp] theorem State.raiseIrq_cause (s : State) (b : BitVec 3) :
    (s.raiseIrq b).cause = s.cause := rfl
@[simp] theorem State.raiseIrq_irqEn (s : State) (b : BitVec 3) :
    (s.raiseIrq b).irqEn = s.irqEn := rfl
@[simp] theorem State.raiseIrq_irqPend (s : State) (b : BitVec 3) :
    (s.raiseIrq b).irqPend = s.irqPend ||| b := rfl
@[simp] theorem State.raiseIrq_keyReady (s : State) (b : BitVec 3) :
    (s.raiseIrq b).keyReady = s.keyReady := rfl
@[simp] theorem State.raiseIrq_schedule (s : State) (b : BitVec 3) :
    (s.raiseIrq b).schedule = s.schedule := rfl
@[simp] theorem State.raiseIrq_responses (s : State) (b : BitVec 3) :
    (s.raiseIrq b).responses = s.responses := rfl

@[simp] theorem State.recordError_regV (s : State) (c : Cause) :
    (s.recordError c).regV = s.regV := rfl
@[simp] theorem State.recordError_regS (s : State) (c : Cause) :
    (s.recordError c).regS = s.regS := rfl
@[simp] theorem State.recordError_din (s : State) (c : Cause) :
    (s.recordError c).din = s.din := rfl
@[simp] theorem State.recordError_dout (s : State) (c : Cause) :
    (s.recordError c).dout = s.dout := rfl
@[simp] theorem State.recordError_tagin (s : State) (c : Cause) :
    (s.recordError c).tagin = s.tagin := rfl
@[simp] theorem State.recordError_absPhase (s : State) (c : Cause) :
    (s.recordError c).absPhase = s.absPhase := rfl
@[simp] theorem State.recordError_ksPhase (s : State) (c : Cause) :
    (s.recordError c).ksPhase = s.ksPhase := rfl
@[simp] theorem State.recordError_adp (s : State) (c : Cause) :
    (s.recordError c).adp = s.adp := rfl
@[simp] theorem State.recordError_ptp (s : State) (c : Cause) :
    (s.recordError c).ptp = s.ptp := rfl
@[simp] theorem State.recordError_pend (s : State) (c : Cause) :
    (s.recordError c).pend = s.pend := rfl
@[simp] theorem State.recordError_auth (s : State) (c : Cause) :
    (s.recordError c).auth = s.auth := rfl
@[simp] theorem State.recordError_errf (s : State) (c : Cause) :
    (s.recordError c).errf = true := rfl
@[simp] theorem State.recordError_cause (s : State) (c : Cause) :
    (s.recordError c).cause = if s.errf then s.cause else c := rfl
@[simp] theorem State.recordError_irqEn (s : State) (c : Cause) :
    (s.recordError c).irqEn = s.irqEn := rfl
@[simp] theorem State.recordError_irqPend (s : State) (c : Cause) :
    (s.recordError c).irqPend = s.irqPend ||| irqErr := rfl
@[simp] theorem State.recordError_keyReady (s : State) (c : Cause) :
    (s.recordError c).keyReady = s.keyReady := rfl
@[simp] theorem State.recordError_schedule (s : State) (c : Cause) :
    (s.recordError c).schedule = s.schedule := rfl
@[simp] theorem State.recordError_responses (s : State) (c : Cause) :
    (s.recordError c).responses = s.responses := rfl

@[simp] theorem State.discard_regV (s : State) :
    (s.discard).regV = s.regV := rfl
@[simp] theorem State.discard_regS (s : State) :
    (s.discard).regS = s.regS := rfl
@[simp] theorem State.discard_din (s : State) :
    (s.discard).din = s.din := rfl
@[simp] theorem State.discard_dout (s : State) :
    (s.discard).dout = s.dout := rfl
@[simp] theorem State.discard_tagin (s : State) :
    (s.discard).tagin = s.tagin := rfl
@[simp] theorem State.discard_absPhase (s : State) :
    (s.discard).absPhase = s.absPhase := rfl
@[simp] theorem State.discard_ksPhase (s : State) :
    (s.discard).ksPhase = s.ksPhase := rfl
@[simp] theorem State.discard_adp (s : State) :
    (s.discard).adp = s.adp := rfl
@[simp] theorem State.discard_ptp (s : State) :
    (s.discard).ptp = s.ptp := rfl
@[simp] theorem State.discard_pend (s : State) :
    (s.discard).pend = none := rfl
@[simp] theorem State.discard_auth (s : State) :
    (s.discard).auth = s.auth := rfl
@[simp] theorem State.discard_errf (s : State) :
    (s.discard).errf = s.errf := rfl
@[simp] theorem State.discard_cause (s : State) :
    (s.discard).cause = s.cause := rfl
@[simp] theorem State.discard_irqEn (s : State) :
    (s.discard).irqEn = s.irqEn := rfl
@[simp] theorem State.discard_irqPend (s : State) :
    (s.discard).irqPend = s.irqPend := rfl
@[simp] theorem State.discard_keyReady (s : State) :
    (s.discard).keyReady = s.keyReady := rfl
@[simp] theorem State.discard_schedule (s : State) :
    (s.discard).schedule = s.schedule := rfl
@[simp] theorem State.discard_responses (s : State) :
    (s.discard).responses = s.responses := rfl

@[simp] theorem State.rejectCmd_regV (s : State) (c : Cause) :
    (s.rejectCmd c).regV = s.regV := rfl
@[simp] theorem State.rejectCmd_regS (s : State) (c : Cause) :
    (s.rejectCmd c).regS = s.regS := rfl
@[simp] theorem State.rejectCmd_din (s : State) (c : Cause) :
    (s.rejectCmd c).din = s.din := rfl
@[simp] theorem State.rejectCmd_dout (s : State) (c : Cause) :
    (s.rejectCmd c).dout = s.dout := rfl
@[simp] theorem State.rejectCmd_tagin (s : State) (c : Cause) :
    (s.rejectCmd c).tagin = s.tagin := rfl
@[simp] theorem State.rejectCmd_absPhase (s : State) (c : Cause) :
    (s.rejectCmd c).absPhase = s.absPhase := rfl
@[simp] theorem State.rejectCmd_ksPhase (s : State) (c : Cause) :
    (s.rejectCmd c).ksPhase = s.ksPhase := rfl
@[simp] theorem State.rejectCmd_adp (s : State) (c : Cause) :
    (s.rejectCmd c).adp = s.adp := rfl
@[simp] theorem State.rejectCmd_ptp (s : State) (c : Cause) :
    (s.rejectCmd c).ptp = s.ptp := rfl
@[simp] theorem State.rejectCmd_pend (s : State) (c : Cause) :
    (s.rejectCmd c).pend = none := rfl
@[simp] theorem State.rejectCmd_auth (s : State) (c : Cause) :
    (s.rejectCmd c).auth = s.auth := rfl
@[simp] theorem State.rejectCmd_errf (s : State) (c : Cause) :
    (s.rejectCmd c).errf = true := rfl
@[simp] theorem State.rejectCmd_cause (s : State) (c : Cause) :
    (s.rejectCmd c).cause = if s.errf then s.cause else c := rfl
@[simp] theorem State.rejectCmd_irqEn (s : State) (c : Cause) :
    (s.rejectCmd c).irqEn = s.irqEn := rfl
@[simp] theorem State.rejectCmd_irqPend (s : State) (c : Cause) :
    (s.rejectCmd c).irqPend = s.irqPend ||| irqErr := rfl
@[simp] theorem State.rejectCmd_keyReady (s : State) (c : Cause) :
    (s.rejectCmd c).keyReady = s.keyReady := rfl
@[simp] theorem State.rejectCmd_schedule (s : State) (c : Cause) :
    (s.rejectCmd c).schedule = s.schedule := rfl
@[simp] theorem State.rejectCmd_responses (s : State) (c : Cause) :
    (s.rejectCmd c).responses = s.responses := rfl

@[simp] theorem State.completeCmd_regV (s : State) :
    (s.completeCmd).regV = s.regV := rfl
@[simp] theorem State.completeCmd_regS (s : State) :
    (s.completeCmd).regS = s.regS := rfl
@[simp] theorem State.completeCmd_din (s : State) :
    (s.completeCmd).din = s.din := rfl
@[simp] theorem State.completeCmd_dout (s : State) :
    (s.completeCmd).dout = s.dout := rfl
@[simp] theorem State.completeCmd_tagin (s : State) :
    (s.completeCmd).tagin = s.tagin := rfl
@[simp] theorem State.completeCmd_absPhase (s : State) :
    (s.completeCmd).absPhase = s.absPhase := rfl
@[simp] theorem State.completeCmd_ksPhase (s : State) :
    (s.completeCmd).ksPhase = s.ksPhase := rfl
@[simp] theorem State.completeCmd_adp (s : State) :
    (s.completeCmd).adp = s.adp := rfl
@[simp] theorem State.completeCmd_ptp (s : State) :
    (s.completeCmd).ptp = s.ptp := rfl
@[simp] theorem State.completeCmd_pend (s : State) :
    (s.completeCmd).pend = none := rfl
@[simp] theorem State.completeCmd_auth (s : State) :
    (s.completeCmd).auth = s.auth := rfl
@[simp] theorem State.completeCmd_errf (s : State) :
    (s.completeCmd).errf = s.errf := rfl
@[simp] theorem State.completeCmd_cause (s : State) :
    (s.completeCmd).cause = s.cause := rfl
@[simp] theorem State.completeCmd_irqEn (s : State) :
    (s.completeCmd).irqEn = s.irqEn := rfl
@[simp] theorem State.completeCmd_irqPend (s : State) :
    (s.completeCmd).irqPend = s.irqPend ||| irqDone := rfl
@[simp] theorem State.completeCmd_keyReady (s : State) :
    (s.completeCmd).keyReady = s.keyReady := rfl
@[simp] theorem State.completeCmd_schedule (s : State) :
    (s.completeCmd).schedule = s.schedule := rfl
@[simp] theorem State.completeCmd_responses (s : State) :
    (s.completeCmd).responses = s.responses := rfl

@[simp] theorem State.clearBlock_regV (s : State) :
    (s.clearBlock).regV = 0 := rfl
@[simp] theorem State.clearBlock_regS (s : State) :
    (s.clearBlock).regS = 0 := rfl
@[simp] theorem State.clearBlock_din (s : State) :
    (s.clearBlock).din = 0 := rfl
@[simp] theorem State.clearBlock_dout (s : State) :
    (s.clearBlock).dout = 0 := rfl
@[simp] theorem State.clearBlock_tagin (s : State) :
    (s.clearBlock).tagin = 0 := rfl
@[simp] theorem State.clearBlock_absPhase (s : State) :
    (s.clearBlock).absPhase = .idle := rfl
@[simp] theorem State.clearBlock_ksPhase (s : State) :
    (s.clearBlock).ksPhase = .kidle := rfl
@[simp] theorem State.clearBlock_adp (s : State) :
    (s.clearBlock).adp = false := rfl
@[simp] theorem State.clearBlock_ptp (s : State) :
    (s.clearBlock).ptp = false := rfl
@[simp] theorem State.clearBlock_pend (s : State) :
    (s.clearBlock).pend = none := rfl
@[simp] theorem State.clearBlock_auth (s : State) :
    (s.clearBlock).auth = .none := rfl
@[simp] theorem State.clearBlock_errf (s : State) :
    (s.clearBlock).errf = false := rfl
@[simp] theorem State.clearBlock_cause (s : State) :
    (s.clearBlock).cause = .none := rfl
@[simp] theorem State.clearBlock_irqEn (s : State) :
    (s.clearBlock).irqEn = s.irqEn := rfl
@[simp] theorem State.clearBlock_irqPend (s : State) :
    (s.clearBlock).irqPend = 0 := rfl
@[simp] theorem State.clearBlock_keyReady (s : State) :
    (s.clearBlock).keyReady = s.keyReady := rfl
@[simp] theorem State.clearBlock_schedule (s : State) :
    (s.clearBlock).schedule = s.schedule := rfl
@[simp] theorem State.clearBlock_responses (s : State) :
    (s.clearBlock).responses = s.responses := rfl

@[simp] theorem State.resetBlock_regV (s : State) :
    (s.resetBlock).regV = 0 := rfl
@[simp] theorem State.resetBlock_regS (s : State) :
    (s.resetBlock).regS = 0 := rfl
@[simp] theorem State.resetBlock_din (s : State) :
    (s.resetBlock).din = 0 := rfl
@[simp] theorem State.resetBlock_dout (s : State) :
    (s.resetBlock).dout = 0 := rfl
@[simp] theorem State.resetBlock_tagin (s : State) :
    (s.resetBlock).tagin = 0 := rfl
@[simp] theorem State.resetBlock_absPhase (s : State) :
    (s.resetBlock).absPhase = .idle := rfl
@[simp] theorem State.resetBlock_ksPhase (s : State) :
    (s.resetBlock).ksPhase = .kidle := rfl
@[simp] theorem State.resetBlock_adp (s : State) :
    (s.resetBlock).adp = false := rfl
@[simp] theorem State.resetBlock_ptp (s : State) :
    (s.resetBlock).ptp = false := rfl
@[simp] theorem State.resetBlock_pend (s : State) :
    (s.resetBlock).pend = none := rfl
@[simp] theorem State.resetBlock_auth (s : State) :
    (s.resetBlock).auth = .none := rfl
@[simp] theorem State.resetBlock_errf (s : State) :
    (s.resetBlock).errf = false := rfl
@[simp] theorem State.resetBlock_cause (s : State) :
    (s.resetBlock).cause = .none := rfl
@[simp] theorem State.resetBlock_irqEn (s : State) :
    (s.resetBlock).irqEn = 0 := rfl
@[simp] theorem State.resetBlock_irqPend (s : State) :
    (s.resetBlock).irqPend = 0 := rfl
@[simp] theorem State.resetBlock_keyReady (s : State) :
    (s.resetBlock).keyReady = s.keyReady := rfl
@[simp] theorem State.resetBlock_schedule (s : State) :
    (s.resetBlock).schedule = s.schedule := rfl
@[simp] theorem State.resetBlock_responses (s : State) :
    (s.resetBlock).responses = s.responses := rfl

@[simp] theorem State.acceptCmd_regV (s : State) (w : Word) :
    (s.acceptCmd w).regV = s.regV := rfl
@[simp] theorem State.acceptCmd_regS (s : State) (w : Word) :
    (s.acceptCmd w).regS = s.regS := rfl
@[simp] theorem State.acceptCmd_din (s : State) (w : Word) :
    (s.acceptCmd w).din = s.din := rfl
@[simp] theorem State.acceptCmd_dout (s : State) (w : Word) :
    (s.acceptCmd w).dout = s.dout := rfl
@[simp] theorem State.acceptCmd_tagin (s : State) (w : Word) :
    (s.acceptCmd w).tagin = s.tagin := rfl
@[simp] theorem State.acceptCmd_absPhase (s : State) (w : Word) :
    (s.acceptCmd w).absPhase = s.absPhase := rfl
@[simp] theorem State.acceptCmd_ksPhase (s : State) (w : Word) :
    (s.acceptCmd w).ksPhase = s.ksPhase := rfl
@[simp] theorem State.acceptCmd_adp (s : State) (w : Word) :
    (s.acceptCmd w).adp = s.adp := rfl
@[simp] theorem State.acceptCmd_ptp (s : State) (w : Word) :
    (s.acceptCmd w).ptp = s.ptp := rfl
@[simp] theorem State.acceptCmd_pend (s : State) (w : Word) :
    (s.acceptCmd w).pend = some { word := w, din := s.din, tagin := s.tagin } := rfl
@[simp] theorem State.acceptCmd_auth (s : State) (w : Word) :
    (s.acceptCmd w).auth = s.auth := rfl
@[simp] theorem State.acceptCmd_errf (s : State) (w : Word) :
    (s.acceptCmd w).errf = s.errf := rfl
@[simp] theorem State.acceptCmd_cause (s : State) (w : Word) :
    (s.acceptCmd w).cause = s.cause := rfl
@[simp] theorem State.acceptCmd_irqEn (s : State) (w : Word) :
    (s.acceptCmd w).irqEn = s.irqEn := rfl
@[simp] theorem State.acceptCmd_irqPend (s : State) (w : Word) :
    (s.acceptCmd w).irqPend = s.irqPend := rfl
@[simp] theorem State.acceptCmd_keyReady (s : State) (w : Word) :
    (s.acceptCmd w).keyReady = s.keyReady := rfl
@[simp] theorem State.acceptCmd_schedule (s : State) (w : Word) :
    (s.acceptCmd w).schedule = s.schedule := rfl
@[simp] theorem State.acceptCmd_responses (s : State) (w : Word) :
    (s.acceptCmd w).responses = s.responses := rfl

@[simp] theorem State.respond_regV (s : State) (o : BitVec 8) (d : Word) :
    (s.respond o d).regV = s.regV := rfl
@[simp] theorem State.respond_regS (s : State) (o : BitVec 8) (d : Word) :
    (s.respond o d).regS = s.regS := rfl
@[simp] theorem State.respond_din (s : State) (o : BitVec 8) (d : Word) :
    (s.respond o d).din = s.din := rfl
@[simp] theorem State.respond_dout (s : State) (o : BitVec 8) (d : Word) :
    (s.respond o d).dout = s.dout := rfl
@[simp] theorem State.respond_tagin (s : State) (o : BitVec 8) (d : Word) :
    (s.respond o d).tagin = s.tagin := rfl
@[simp] theorem State.respond_absPhase (s : State) (o : BitVec 8) (d : Word) :
    (s.respond o d).absPhase = s.absPhase := rfl
@[simp] theorem State.respond_ksPhase (s : State) (o : BitVec 8) (d : Word) :
    (s.respond o d).ksPhase = s.ksPhase := rfl
@[simp] theorem State.respond_adp (s : State) (o : BitVec 8) (d : Word) :
    (s.respond o d).adp = s.adp := rfl
@[simp] theorem State.respond_ptp (s : State) (o : BitVec 8) (d : Word) :
    (s.respond o d).ptp = s.ptp := rfl
@[simp] theorem State.respond_pend (s : State) (o : BitVec 8) (d : Word) :
    (s.respond o d).pend = s.pend := rfl
@[simp] theorem State.respond_auth (s : State) (o : BitVec 8) (d : Word) :
    (s.respond o d).auth = s.auth := rfl
@[simp] theorem State.respond_errf (s : State) (o : BitVec 8) (d : Word) :
    (s.respond o d).errf = s.errf := rfl
@[simp] theorem State.respond_cause (s : State) (o : BitVec 8) (d : Word) :
    (s.respond o d).cause = s.cause := rfl
@[simp] theorem State.respond_irqEn (s : State) (o : BitVec 8) (d : Word) :
    (s.respond o d).irqEn = s.irqEn := rfl
@[simp] theorem State.respond_irqPend (s : State) (o : BitVec 8) (d : Word) :
    (s.respond o d).irqPend = s.irqPend := rfl
@[simp] theorem State.respond_keyReady (s : State) (o : BitVec 8) (d : Word) :
    (s.respond o d).keyReady = s.keyReady := rfl
@[simp] theorem State.respond_schedule (s : State) (o : BitVec 8) (d : Word) :
    (s.respond o d).schedule = s.schedule := rfl
@[simp] theorem State.respond_responses (s : State) (o : BitVec 8) (d : Word) :
    (s.respond o d).responses = s.responses ++ [{ off := o, data := d }] := rfl

@[simp] theorem State.withSchedule_regV (s : State) (es : List Event) :
    (s.withSchedule es).regV = s.regV := rfl
@[simp] theorem State.withSchedule_regS (s : State) (es : List Event) :
    (s.withSchedule es).regS = s.regS := rfl
@[simp] theorem State.withSchedule_din (s : State) (es : List Event) :
    (s.withSchedule es).din = s.din := rfl
@[simp] theorem State.withSchedule_dout (s : State) (es : List Event) :
    (s.withSchedule es).dout = s.dout := rfl
@[simp] theorem State.withSchedule_tagin (s : State) (es : List Event) :
    (s.withSchedule es).tagin = s.tagin := rfl
@[simp] theorem State.withSchedule_absPhase (s : State) (es : List Event) :
    (s.withSchedule es).absPhase = s.absPhase := rfl
@[simp] theorem State.withSchedule_ksPhase (s : State) (es : List Event) :
    (s.withSchedule es).ksPhase = s.ksPhase := rfl
@[simp] theorem State.withSchedule_adp (s : State) (es : List Event) :
    (s.withSchedule es).adp = s.adp := rfl
@[simp] theorem State.withSchedule_ptp (s : State) (es : List Event) :
    (s.withSchedule es).ptp = s.ptp := rfl
@[simp] theorem State.withSchedule_pend (s : State) (es : List Event) :
    (s.withSchedule es).pend = s.pend := rfl
@[simp] theorem State.withSchedule_auth (s : State) (es : List Event) :
    (s.withSchedule es).auth = s.auth := rfl
@[simp] theorem State.withSchedule_errf (s : State) (es : List Event) :
    (s.withSchedule es).errf = s.errf := rfl
@[simp] theorem State.withSchedule_cause (s : State) (es : List Event) :
    (s.withSchedule es).cause = s.cause := rfl
@[simp] theorem State.withSchedule_irqEn (s : State) (es : List Event) :
    (s.withSchedule es).irqEn = s.irqEn := rfl
@[simp] theorem State.withSchedule_irqPend (s : State) (es : List Event) :
    (s.withSchedule es).irqPend = s.irqPend := rfl
@[simp] theorem State.withSchedule_keyReady (s : State) (es : List Event) :
    (s.withSchedule es).keyReady = s.keyReady := rfl
@[simp] theorem State.withSchedule_schedule (s : State) (es : List Event) :
    (s.withSchedule es).schedule = es := rfl
@[simp] theorem State.withSchedule_responses (s : State) (es : List Event) :
    (s.withSchedule es).responses = s.responses := rfl

@[simp] theorem State.acceptCmd_snapDin (s : State) (w : Word) : (s.acceptCmd w).snapDin = s.din := rfl
@[simp] theorem State.acceptCmd_snapTagin (s : State) (w : Word) :
    (s.acceptCmd w).snapTagin = s.tagin := rfl
@[simp] theorem State.withSchedule_snapDin (s : State) (es : List Event) :
    (s.withSchedule es).snapDin = s.snapDin := rfl
@[simp] theorem State.withSchedule_snapTagin (s : State) (es : List Event) :
    (s.withSchedule es).snapTagin = s.snapTagin := rfl
@[simp] theorem State.withSchedule_self (s : State) : s.withSchedule s.schedule = s := rfl
@[simp] theorem State.withSchedule_withSchedule (s : State) (es es' : List Event) :
    (s.withSchedule es).withSchedule es' = s.withSchedule es' := rfl

/-- The snapshot of the pending command (R30). -/
theorem State.snapDin_of_pend (s : State) (q : Pending) (h : s.pend = some q) : s.snapDin = q.din := by
  simp [State.snapDin, h]

/-- The snapshot of the pending command (R30). -/
theorem State.snapTagin_of_pend (s : State) (q : Pending) (h : s.pend = some q) :
    s.snapTagin = q.tagin := by
  simp [State.snapTagin, h]

end Sys2Proof.Machine
end

