-- ==== Sys2Proof/Laws/Bus.lean ====
section
/-! SUPPORT. The register map and the host's accesses: which register an offset reaches, and what the
pseudo-operations of 30_encoding.md R88 do in one step each. -/

namespace Sys2Proof.Machine

/-- R51: the two low bits of an offset do not matter. -/
theorem registerAt_aligned (off : BitVec 8) : registerAt (off &&& 0xFC) = registerAt off := by
  have h : wordIndex (off &&& 0xFC) = wordIndex off := by
    revert off
    decide
  unfold registerAt
  rw [h]

/-- R50: an offset of the window, through the address decoder. -/
theorem decodeAddress_base_add (n : Nat) (h : n < 256) :
    decodeAddress (Config.BASE + n) = .block (BitVec.ofNat 8 n) := by
  unfold decodeAddress
  rw [if_pos ⟨by omega, by omega⟩, Nat.add_sub_cancel_left]

/-- R88: `wr OFF, v` in the window is a bus write. -/
theorem perform_wr (n : Nat) (h : n < 256) (v : Word) (s : State) :
    perform (wr n v) s = busWrite (BitVec.ofNat 8 n) v s := by
  simp [wr, decodeAddress_base_add n h, perform]

/-- R88: `rd OFF` in the window answers the word, and changes nothing else. -/
theorem perform_rd (n : Nat) (h : n < 256) (s : State) :
    perform (rd n) s =
      .next (s.respond (BitVec.ofNat 8 n) (busRead (BitVec.ofNat 8 n) s)) := by
  simp [rd, decodeAddress_base_add n h, perform]

/-- R150: the comparison finds no difference exactly when the sixteen bytes agree. -/
theorem tagDifference_eq_zero (v t : Block) : tagDifference v t = 0 ↔ v = t := by
  have or_zero : ∀ a b : Byte, a ||| b = 0 ↔ a = 0 ∧ b = 0 := by
    intro a b
    constructor
    · intro h
      constructor <;> apply BitVec.eq_of_getLsbD_eq <;> intro k hk <;>
        have hk' := congrArg (BitVec.getLsbD · k) h <;> simp at hk' <;> simp [hk']
    · rintro ⟨rfl, rfl⟩
      rfl
  have fold : ∀ (f : Nat → Byte) (l : List Nat) (a : Byte),
      l.foldl (fun d i => d ||| f i) a = 0 ↔ a = 0 ∧ ∀ i ∈ l, f i = 0 := by
    intro f l
    induction l with
    | nil => simp
    | cons x l ih =>
      intro a
      simp only [List.foldl_cons, ih, or_zero, List.mem_cons, forall_eq_or_imp, and_assoc]
  unfold tagDifference
  rw [fold]
  constructor
  · intro h
    refine block_ext_bytes v t fun i hi => ?_
    exact BitVec.xor_eq_zero_iff.mp (h.2 i (List.mem_range.mpr hi))
  · rintro rfl
    exact ⟨rfl, fun i _ => BitVec.xor_self⟩

end Sys2Proof.Machine
end

