-- ==== Sys2Proof/Laws/PerInstr.lean ====
section
/-! SUPPORT. The family EncodeSelects, one lemma per constructor: the word of a well-formed command selects the
row of its own command in the mask table (30_encoding.md R82). -/

namespace Sys2Proof.Laws.EncodeSelects

/-- R82: the row of the mask table of each command. -/
def rowOf : Instr → OpRow
  | .init _ _ => rowInit
  | .abs _ _ _ => rowAbs
  | .kseed _ => rowKseed
  | .ks _ _ => rowKs
  | .ksabs _ _ => rowKsabs
  | .verify => rowVerify
  | .clear => rowClear

/-- The command's word has its opcode and no bit outside its fields. -/
def Statement (i : Instr) : Prop := i.wellFormed = true → (rowOf i).selectedBy (encode i) = true

theorem init (adp ptp : Bool) : Statement (.init adp ptp) := by
  intro _
  cases adp <;> cases ptp <;> rfl

theorem abs (seg : Segment) (fin : Bool) (len : Nat) : Statement (.abs seg fin len) := by
  intro h
  have hl : len < 32 := by simpa [Instr.wellFormed, lenEncodable] using h
  cases seg <;> cases fin <;> interval_cases len <;> rfl

theorem kseed (src : SeedSource) : Statement (.kseed src) := by
  intro _
  cases src <;> rfl

theorem ks (fin : Bool) (len : Nat) : Statement (.ks fin len) := by
  intro h
  have hl : len < 32 := by simpa [Instr.wellFormed, lenEncodable] using h
  cases fin <;> interval_cases len <;> rfl

theorem ksabs (fin : Bool) (len : Nat) : Statement (.ksabs fin len) := by
  intro h
  have hl : len < 32 := by simpa [Instr.wellFormed, lenEncodable] using h
  cases fin <;> interval_cases len <;> rfl

theorem verify : Statement .verify := fun _ => rfl

theorem clear : Statement .clear := fun _ => rfl

end Sys2Proof.Laws.EncodeSelects
end

