-- ==== Sys2Proof/Laws/Step.lean ====
section
/-! SUPPORT. What each shared operation, each meaning and a whole step can do, said once: if it answers a next
state, that state is one of these. -/

namespace Sys2Proof.Machine

/-- R187: what `runCommand` can do: reject for the first check that fails, or complete. -/
theorem runCommand_cases (lenOk seqOk needsKey : Bool) (effect : State → State) (s t : State)
    (h : runCommand lenOk seqOk needsKey effect s = .next t) :
    (lenOk = false ∧ t = s.rejectCmd .badLen)
      ∨ (lenOk = true ∧ seqOk = false ∧ t = s.rejectCmd .sequence)
      ∨ (lenOk = true ∧ seqOk = true ∧ needsKey = true ∧ s.keyReady = false
        ∧ t = s.rejectCmd .noKey)
      ∨ (lenOk = true ∧ seqOk = true ∧ (needsKey = true → s.keyReady = true)
        ∧ t = (effect s).completeCmd) := by
  unfold runCommand at h
  cases lenOk <;> cases seqOk <;> cases needsKey <;> cases hk : s.keyReady <;>
    simp [hk] at h <;> simp [h]

/-- `runCommand` always answers a next state: a rejected command is no stop. -/
theorem runCommand_next (lenOk seqOk needsKey : Bool) (effect : State → State) (s : State) :
    ∃ t, runCommand lenOk seqOk needsKey effect s = .next t := by
  unfold runCommand
  split_ifs <;> exact ⟨_, rfl⟩

/-! Each meaning is `runCommand` with the command's own checks and effect. -/

theorem exec_init (adp ptp : Bool) (s : State) :
    exec (.init adp ptp) s = runCommand true true true (initEffect adp ptp) s := rfl
theorem exec_abs (seg : Segment) (fin : Bool) (len : Nat) (s : State) :
    exec (.abs seg fin len) s =
      runCommand (lenLegal fin len) (s.absLegal seg) true (absEffect fin len) s := rfl
theorem exec_kseed (src : SeedSource) (s : State) :
    exec (.kseed src) s = runCommand true (s.kseedLegal src) false (kseedEffect src) s := rfl
theorem exec_ks (fin : Bool) (len : Nat) (s : State) :
    exec (.ks fin len) s = runCommand (lenLegal fin len) s.ksLegal true (keystreamStep fin len) s :=
  rfl
theorem exec_ksabs (fin : Bool) (len : Nat) (s : State) :
    exec (.ksabs fin len) s =
      runCommand (lenLegal fin len) s.ksabsLegal true (ksabsEffect fin len) s := rfl
theorem exec_verify (s : State) :
    exec .verify s = runCommand true s.verifyLegal false verifyEffect s := rfl
theorem exec_clear (s : State) : exec .clear s = .next s.clearBlock := rfl

/-- What `exec` can do, by instruction: a rejection, with its cause, or a completion in a state in which
the instruction is legal. -/
inductive ExecResult (s : State) : Instr → State → Prop where
  | rejected (i : Instr) (c : Cause) (hi : i ≠ .clear) (hc : c ≠ .none) (hb : c ≠ .busy) :
      ExecResult s i (s.rejectCmd c)
  | init (adp ptp : Bool) (hk : s.keyReady = true) :
      ExecResult s (.init adp ptp) (initEffect adp ptp s).completeCmd
  | abs (seg : Segment) (fin : Bool) (len : Nat) (hl : lenLegal fin len = true)
      (hp : s.absPhase = segPhase seg) (hk : s.keyReady = true) :
      ExecResult s (.abs seg fin len) (absEffect fin len s).completeCmd
  | kseed (src : SeedSource) (hk : s.ksPhase ≠ .krun) (ht : src = .tag → s.absPhase = .tagrdy) :
      ExecResult s (.kseed src) (kseedEffect src s).completeCmd
  | ks (fin : Bool) (len : Nat) (hl : lenLegal fin len = true) (hp : s.ksPhase = .krun)
      (hk : s.keyReady = true) :
      ExecResult s (.ks fin len) (keystreamStep fin len s).completeCmd
  | ksabs (fin : Bool) (len : Nat) (hl : lenLegal fin len = true) (hp : s.ksPhase = .krun)
      (ha : s.absPhase = .pt) (hk : s.keyReady = true) :
      ExecResult s (.ksabs fin len) (ksabsEffect fin len s).completeCmd
  | verify (hp : s.absPhase = .tagrdy) : ExecResult s .verify (verifyEffect s).completeCmd
  | clear : ExecResult s .clear s.clearBlock

theorem exec_result (i : Instr) (s t : State) (h : exec i s = .next t) : ExecResult s i t := by
  cases i with
  | init adp ptp =>
    rw [exec_init] at h
    rcases runCommand_cases _ _ _ _ _ _ h with ⟨h1, _⟩ | ⟨_, h1, _⟩ | ⟨-, -, -, -, rfl⟩ | ⟨-, -, hk, rfl⟩
    · cases h1
    · cases h1
    · exact .rejected _ _ nofun nofun nofun
    · exact .init adp ptp (hk rfl)
  | abs seg fin len =>
    rw [exec_abs] at h
    rcases runCommand_cases _ _ _ _ _ _ h with ⟨-, rfl⟩ | ⟨-, -, rfl⟩ | ⟨-, -, -, -, rfl⟩ | ⟨hl, hp, hk, rfl⟩
    · exact .rejected _ _ nofun nofun nofun
    · exact .rejected _ _ nofun nofun nofun
    · exact .rejected _ _ nofun nofun nofun
    · exact .abs seg fin len hl (by simpa [State.absLegal] using hp) (hk rfl)
  | kseed src =>
    rw [exec_kseed] at h
    rcases runCommand_cases _ _ _ _ _ _ h with ⟨h1, _⟩ | ⟨-, -, rfl⟩ | ⟨-, -, h1, _⟩ | ⟨-, hp, -, rfl⟩
    · cases h1
    · exact .rejected _ _ nofun nofun nofun
    · cases h1
    · simp only [State.kseedLegal, Bool.and_eq_true, Bool.or_eq_true, decide_eq_true_eq] at hp
      exact .kseed src hp.1 fun hs => hp.2.resolve_left (by simp [hs])
  | ks fin len =>
    rw [exec_ks] at h
    rcases runCommand_cases _ _ _ _ _ _ h with ⟨-, rfl⟩ | ⟨-, -, rfl⟩ | ⟨-, -, -, -, rfl⟩ | ⟨hl, hp, hk, rfl⟩
    · exact .rejected _ _ nofun nofun nofun
    · exact .rejected _ _ nofun nofun nofun
    · exact .rejected _ _ nofun nofun nofun
    · exact .ks fin len hl (by simpa [State.ksLegal] using hp) (hk rfl)
  | ksabs fin len =>
    rw [exec_ksabs] at h
    rcases runCommand_cases _ _ _ _ _ _ h with ⟨-, rfl⟩ | ⟨-, -, rfl⟩ | ⟨-, -, -, -, rfl⟩ | ⟨hl, hp, hk, rfl⟩
    · exact .rejected _ _ nofun nofun nofun
    · exact .rejected _ _ nofun nofun nofun
    · exact .rejected _ _ nofun nofun nofun
    · simp only [State.ksabsLegal, Bool.and_eq_true, decide_eq_true_eq] at hp
      exact .ksabs fin len hl hp.1 hp.2 (hk rfl)
  | verify =>
    rw [exec_verify] at h
    rcases runCommand_cases _ _ _ _ _ _ h with ⟨h1, _⟩ | ⟨-, -, rfl⟩ | ⟨-, -, h1, _⟩ | ⟨-, hp, -, rfl⟩
    · cases h1
    · exact .rejected _ _ nofun nofun nofun
    · cases h1
    · exact .verify (by simpa [State.verifyLegal] using hp)
  | clear =>
    cases h
    exact .clear

/-- Every command ends in a next state. -/
theorem exec_next (i : Instr) (s : State) : ∃ t, exec i s = .next t := by
  cases i with
  | init adp ptp => exact exec_init adp ptp s ▸ runCommand_next ..
  | abs seg fin len => exact exec_abs seg fin len s ▸ runCommand_next ..
  | kseed src => exact exec_kseed src s ▸ runCommand_next ..
  | ks fin len => exact exec_ks fin len s ▸ runCommand_next ..
  | ksabs fin len => exact exec_ksabs fin len s ▸ runCommand_next ..
  | verify => exact exec_verify s ▸ runCommand_next ..
  | clear => exact ⟨_, exec_clear s⟩

/-- What a host write can do (R155, R157). -/
inductive WriteResult (s : State) (off : BitVec 8) (v : Word) : State → Prop where
  | ignored : WriteResult s off v s
  | clear (hr : registerAt off = .cmd) (hw : v = clearWord) : WriteResult s off v s.clearBlock
  | busy (hr : registerAt off = .cmd) (hw : v ≠ clearWord) (he : s.errf = false)
      (hp : s.pend.isSome = true) : WriteResult s off v (s.recordError .busy)
  | accept (hr : registerAt off = .cmd) (hw : v ≠ clearWord) (he : s.errf = false)
      (hp : s.pend = none) : WriteResult s off v (s.acceptCmd v)
  | irqEn : WriteResult s off v { s with irqEn := v.setWidth 3 }
  | irqPend (hr : registerAt off = .irqPend) :
      WriteResult s off v { s with irqPend := s.irqPend &&& ~~~(v.setWidth 3) }
  | din (k : Nat) (hr : registerAt off = .din k) :
      WriteResult s off v { s with din := setBlockWord s.din k v }
  | tagin (k : Nat) (hr : registerAt off = .tagin k) :
      WriteResult s off v { s with tagin := setBlockWord s.tagin k v }

theorem busWrite_result (off : BitVec 8) (v : Word) (s t : State) (h : busWrite off v s = .next t) :
    WriteResult s off v t := by
  cases hr : registerAt off with
  | cmd =>
    simp only [busWrite, hr, cmdWrite] at h
    by_cases hw : v = clearWord
    · rw [if_pos hw] at h
      cases h
      exact .clear hr hw
    · rw [if_neg hw] at h
      cases he : s.errf with
      | true =>
        rw [he, if_pos rfl] at h
        cases h
        exact .ignored
      | false =>
        cases hp : s.pend with
        | none =>
          simp [he, hp, State.busy] at h
          subst h
          exact .accept hr hw he hp
        | some q =>
          simp [he, hp, State.busy] at h
          subst h
          exact .busy hr hw he (by simp [hp])
  | irqEn =>
    simp only [busWrite, hr] at h
    cases h
    exact .irqEn
  | irqPend =>
    simp only [busWrite, hr] at h
    cases h
    exact .irqPend hr
  | din k =>
    simp only [busWrite, hr] at h
    cases h
    exact .din k hr
  | tagin k =>
    simp only [busWrite, hr] at h
    cases h
    exact .tagin k hr
  | _ =>
    simp only [busWrite, hr] at h
    cases h
    exact .ignored

/-- A word write always answers a next state (R51, R54). -/
theorem busWrite_next (off : BitVec 8) (v : Word) (s : State) : ∃ t, busWrite off v s = .next t := by
  unfold busWrite
  cases registerAt off with
  | cmd =>
    simp only [cmdWrite]
    split_ifs
    · exact exec_next _ _
    all_goals exact ⟨_, rfl⟩
  | _ => exact ⟨_, rfl⟩

/-- What a step can do: the engine step with an empty slot, a discarded command, an ILLEGAL word or an
executed command; a host read or write; an access that does not reach the block; a change of
KEY_READY; reset. -/
inductive StepResult (s : State) : State → Prop where
  | engineIdle (he : s.engineNext = true) (hp : s.pend = none) : StepResult s s.advance
  | discarded (q : Pending) (he : s.engineNext = true) (hp : s.pend = some q) (hf : s.errf = true) :
      StepResult s s.advance.discard
  | illegal (q : Pending) (he : s.engineNext = true) (hp : s.pend = some q) (hf : s.errf = false)
      (hd : ∀ i, decode q.word = .ok i → i = .clear) :
      StepResult s (s.advance.rejectCmd .illegal)
  | executed (q : Pending) (i : Instr) (t : State) (he : s.engineNext = true)
      (hp : s.pend = some q) (hf : s.errf = false) (hd : decode q.word = .ok i) (hi : i ≠ .clear)
      (hx : s.executes = some i) (hr : ExecResult s.advance i t) : StepResult s t
  | write (off : BitVec 8) (v : Word) (rest : List Event) (t : State)
      (hs : s.schedule = .write (.block off) 4 v :: rest) (hr : WriteResult s.advance off v t) :
      StepResult s t
  | read (off : BitVec 8) (rest : List Event) (hs : s.schedule = .read (.block off) 4 :: rest) :
      StepResult s (s.advance.respond off (busRead off s.advance))
  | elsewhere (e : Event) (rest : List Event) (hs : s.schedule = e :: rest) (he : e ≠ .engine)
      (hr : e ≠ .reset) : StepResult s s.advance
  | keyReady (level : Bool) (rest : List Event) (hs : s.schedule = .keyReady level :: rest)
      (hl : level = true ∨ s.keyReady = false ∨ s.pend = none ∧ s.inOperation = false) :
      StepResult s { s.advance with keyReady := level }
  | reset (rest : List Event) (hs : s.schedule = .reset :: rest) :
      StepResult s s.advance.resetBlock

/-- The engine step, when it is next. -/
theorem step_of_engineNext (s : State) (h : s.engineNext = true) : step s = engineStep s.advance := by
  unfold step State.engineNext at *
  cases hs : s.schedule with
  | nil =>
    have : s.advance = s := by
      unfold State.advance
      rw [hs, List.tail_nil, ← hs, State.withSchedule_self]
    rw [this]
  | cons e rest =>
    simp only [hs, decide_eq_true_eq] at h
    subst h
    simp [State.advance, hs, perform]

/-- The step when a schedule is given. -/
theorem step_of_schedule (s : State) (e : Event) (rest : List Event) (h : s.schedule = e :: rest) :
    step s = perform e s.advance := by
  simp [step, State.advance, h]

theorem executes_of_decode (s : State) (q : Pending) (i : Instr) (he : s.engineNext = true)
    (hp : s.pend = some q) (hf : s.errf = false) (hd : decode q.word = .ok i) (hi : i ≠ .clear) :
    s.executes = some i := by
  cases i with
  | clear => exact absurd rfl hi
  | _ => simp [State.executes, he, hp, hf, hd]

theorem executes_of_clear_write (s : State) (off : BitVec 8) (rest : List Event)
    (hs : s.schedule = .write (.block off) 4 clearWord :: rest) (hr : registerAt off = .cmd) :
    s.executes = some .clear := by
  simp [State.executes, State.engineNext, hs, Event.isClearWrite, hr]

theorem engineStep_result (s t : State) (he : s.engineNext = true)
    (h : engineStep s.advance = .next t) : StepResult s t := by
  have hpa : s.advance.pend = s.pend := rfl
  have hfa : s.advance.errf = s.errf := rfl
  unfold engineStep at h
  rw [hpa] at h
  cases hp : s.pend with
  | none =>
    rw [hp] at h
    cases h
    exact .engineIdle he hp
  | some q =>
    rw [hp] at h
    cases hf : s.errf with
    | true =>
      simp only [hfa, hf, if_true] at h
      cases h
      exact .discarded q he hp hf
    | false =>
      simp only [hfa, hf, Bool.false_eq_true, if_false] at h
      cases hd : decode q.word with
      | error e =>
        simp only [hd] at h
        cases h
        exact .illegal q he hp hf (by simp [hd])
      | ok i =>
        by_cases hi : i = .clear
        · subst hi
          simp only [hd] at h
          cases h
          exact .illegal q he hp hf (by simp [hd])
        · have h' : exec i s.advance = .next t := by
            cases i with
            | clear => exact absurd rfl hi
            | _ => simpa [hd] using h
          exact .executed q i t he hp hf hd hi (executes_of_decode s q i he hp hf hd hi)
            (exec_result i _ t h')

/-- The inversion of a step: every rule about all steps is a case analysis of this. -/
theorem step_result (s t : State) (h : step s = .next t) : StepResult s t := by
  cases hs : s.schedule with
  | nil =>
    have he : s.engineNext = true := by simp [State.engineNext, hs]
    rw [step_of_engineNext s he] at h
    exact engineStep_result s t he h
  | cons e rest =>
    rw [step_of_schedule s e rest hs] at h
    cases e with
    | engine =>
      have he : s.engineNext = true := by simp [State.engineNext, hs]
      exact engineStep_result s t he h
    | read tgt n =>
      cases tgt with
      | elsewhere =>
        cases h
        exact .elsewhere _ rest hs nofun nofun
      | block off =>
        simp only [perform] at h
        split_ifs at h with hn
        subst hn
        cases h
        exact .read off rest hs
    | write tgt n v =>
      cases tgt with
      | elsewhere =>
        cases h
        exact .elsewhere _ rest hs nofun nofun
      | block off =>
        simp only [perform] at h
        split_ifs at h with hn
        subst hn
        exact .write off v rest t hs (busWrite_result off v _ t h)
    | keyReady level =>
      have hk : s.advance.keyReady = s.keyReady := rfl
      have hp : s.advance.pend = s.pend := rfl
      have ho : s.advance.inOperation = s.inOperation := rfl
      simp only [perform, State.busy, hk, hp, ho] at h
      split_ifs at h with h1 h2
      cases h
      refine .keyReady level rest hs ?_
      cases level <;> cases hkr : s.keyReady <;> cases hpe : s.pend <;> simp_all
    | keyChange => cases h
    | reset =>
      cases h
      exact .reset rest hs

end Sys2Proof.Machine
end

