-- ==== Sys2Proof/Laws/Run.lean ====
section
/-! SUPPORT. Runs of a piece of interleaving, one event at a time, and what the host's pseudo-operations
(30_encoding.md R88) do as a whole. -/

namespace Sys2Proof.Machine

/-- An outcome with its next state changed by `f`. -/
def mapNext (f : State → State) : Host.Outcome State Fault Refusal → Host.Outcome State Fault Refusal
  | .next s => .next (f s)
  | .fault r => .fault r
  | .refused r => .refused r

/-- The model's own fields, replaced: a command neither reads nor writes them. -/
def State.withOwn (s : State) (es : List Event) (rs : List Response) : State :=
  { s with schedule := es, responses := rs }

theorem runCommand_withOwn (a b c : Bool) (f : State → State) (s : State) (es : List Event)
    (rs : List Response) (hf : f (s.withOwn es rs) = (f s).withOwn es rs) :
    runCommand a b c f (s.withOwn es rs) = mapNext (·.withOwn es rs) (runCommand a b c f s) := by
  have hk : (s.withOwn es rs).keyReady = s.keyReady := rfl
  unfold runCommand
  rw [hf, hk]
  split_ifs <;> rfl

/-- A command does the same whatever interleaving is to come and whatever the host has read. -/
theorem exec_withOwn (i : Instr) (s : State) (es : List Event) (rs : List Response) :
    exec i (s.withOwn es rs) = mapNext (·.withOwn es rs) (exec i s) := by
  cases i with
  | init adp ptp =>
    rw [exec_init, exec_init]
    exact runCommand_withOwn _ _ _ _ s es rs rfl
  | abs seg fin len =>
    rw [exec_abs, exec_abs]
    exact runCommand_withOwn _ _ _ _ s es rs rfl
  | kseed src =>
    rw [exec_kseed, exec_kseed]
    refine runCommand_withOwn _ _ _ _ s es rs ?_
    cases src <;> rfl
  | ks fin len =>
    rw [exec_ks, exec_ks]
    exact runCommand_withOwn _ _ _ _ s es rs rfl
  | ksabs fin len =>
    rw [exec_ksabs, exec_ksabs]
    exact runCommand_withOwn _ _ _ _ s es rs rfl
  | verify =>
    rw [exec_verify, exec_verify]
    refine runCommand_withOwn _ _ _ _ s es rs ?_
    have h1 : (s.withOwn es rs).regV = s.regV := rfl
    have h2 : (s.withOwn es rs).snapTagin = s.snapTagin := rfl
    unfold verifyEffect
    rw [h1, h2]
    split_ifs <;> rfl
  | clear => rfl

theorem engineStep_withSchedule (s : State) (es : List Event) :
    engineStep (s.withSchedule es) = mapNext (·.withSchedule es) (engineStep s) := by
  have hx : ∀ i, exec i (s.withSchedule es) = mapNext (·.withSchedule es) (exec i s) := by
    intro i
    cases hi : exec i s with
    | next t =>
      have h := exec_withOwn i s es s.responses
      have hr : t.responses = s.responses := by
        have h' := exec_withOwn i s s.schedule s.responses
        rw [show s.withOwn s.schedule s.responses = s from rfl, hi] at h'
        simp only [mapNext, Host.Outcome.next.injEq] at h'
        rw [h']
        rfl
      rw [hi] at h
      rw [show s.withSchedule es = s.withOwn es s.responses from rfl, h, mapNext, ← hr]
      rfl
    | fault r => cases r
    | refused r =>
      obtain ⟨t, ht⟩ := exec_next i s
      rw [ht] at hi
      cases hi
  have hp : (s.withSchedule es).pend = s.pend := rfl
  have he : (s.withSchedule es).errf = s.errf := rfl
  unfold engineStep
  rw [hp, he]
  cases s.pend with
  | none => rfl
  | some q =>
    cases s.errf with
    | true => rfl
    | false =>
      simp only [Bool.false_eq_true, if_false]
      cases decode q.word with
      | error e => rfl
      | ok i => cases i <;> first | rfl | exact hx _

theorem busWrite_withSchedule (off : BitVec 8) (v : Word) (s : State) (es : List Event) :
    busWrite off v (s.withSchedule es) = mapNext (·.withSchedule es) (busWrite off v s) := by
  unfold busWrite
  cases registerAt off with
  | cmd =>
    simp only [cmdWrite]
    have he : (s.withSchedule es).errf = s.errf := rfl
    have hb : (s.withSchedule es).busy = s.busy := rfl
    rw [he, hb]
    split_ifs <;> rfl
  | _ => rfl

/-- An atomic step does the same whatever interleaving is to come. -/
theorem perform_withSchedule (e : Event) (s : State) (es : List Event) :
    perform e (s.withSchedule es) = mapNext (·.withSchedule es) (perform e s) := by
  cases e with
  | read tgt n =>
    cases tgt with
    | elsewhere => rfl
    | block off =>
      have h : busRead off (s.withSchedule es) = busRead off s := rfl
      simp only [perform, h]
      split_ifs <;> rfl
  | write tgt n v =>
    cases tgt with
    | elsewhere => rfl
    | block off =>
      simp only [perform, busWrite_withSchedule]
      split_ifs <;> rfl
  | engine => exact engineStep_withSchedule s es
  | keyReady level =>
    have hk : (s.withSchedule es).keyReady = s.keyReady := rfl
    have hb : (s.withSchedule es).busy = s.busy := rfl
    have ho : (s.withSchedule es).inOperation = s.inOperation := rfl
    simp only [perform, hk, hb, ho]
    split_ifs <;> rfl
  | keyChange => rfl
  | reset => rfl

/-- The events of a list, one after another. -/
def performAll : List Event → State → Host.Outcome State Fault Refusal
  | [], s => .next s
  | e :: es, s =>
    match perform e s with
    | .next t => performAll es t
    | .fault r => .fault r
    | .refused r => .refused r

@[simp] theorem performAll_nil (s : State) : performAll [] s = .next s := rfl

theorem performAll_cons (e : Event) (es : List Event) (s t : State) (h : perform e s = .next t) :
    performAll (e :: es) s = performAll es t := by
  simp [performAll, h]

/-- One run after another. -/
theorem performAll_append (es fs : List Event) (s t : State) (h : performAll es s = .next t) :
    performAll (es ++ fs) s = performAll fs t := by
  induction es generalizing s with
  | nil =>
    cases h
    rfl
  | cons e es ih =>
    simp only [performAll, List.cons_append] at h ⊢
    cases he : perform e s with
    | next u =>
      rw [he] at h
      exact ih u h
    | fault r => cases r
    | refused r =>
      rw [he] at h
      cases h

theorem runSteps_performAll (es : List Event) (s : State) (rest : List Event) :
    runSteps es.length (s.withSchedule (es ++ rest)) =
      mapNext (·.withSchedule rest) (performAll es s) := by
  induction es generalizing s with
  | nil => rfl
  | cons e es ih =>
    have hs : step (s.withSchedule (e :: es ++ rest)) = perform e (s.withSchedule (es ++ rest)) := rfl
    show Host.Core.run Sys2Proof.core (es.length + 1) _ = _
    simp only [Host.Core.run, performAll]
    rw [show Sys2Proof.core.step = step from rfl, hs, perform_withSchedule]
    cases he : perform e s with
    | next t => exact ih t
    | fault r => rfl
    | refused r => rfl

/-- An atomic step leaves the interleaving to come as it is. -/
theorem perform_schedule (e : Event) (s t : State) (h : perform e s = .next t) :
    t.schedule = s.schedule := by
  have h' := perform_withSchedule e s s.schedule
  rw [State.withSchedule_self, h] at h'
  simp only [mapNext, Host.Outcome.next.injEq] at h'
  rw [h']
  rfl

theorem performAll_schedule (es : List Event) (s t : State) (h : performAll es s = .next t) :
    t.schedule = s.schedule := by
  induction es generalizing s with
  | nil =>
    cases h
    rfl
  | cons e es ih =>
    simp only [performAll] at h
    cases he : perform e s with
    | next u =>
      rw [he] at h
      rw [ih u h, perform_schedule e s u he]
    | fault r => cases r
    | refused r =>
      rw [he] at h
      cases h

/-- A run of a piece of interleaving is its events one after another. -/
theorem runSeq_of_performAll (es : List Event) (s t : State) (h : performAll es s = .next t) :
    runSeq es s = .next t := by
  have hs := performAll_schedule es s t h
  rw [runSeq, runSteps_performAll, h, mapNext, ← hs, State.withSchedule_self]

/-- More responses for the host. -/
def State.addResponses (s : State) (rs : List Response) : State :=
  { s with responses := s.responses ++ rs }

@[simp] theorem State.addResponses_nil (s : State) : s.addResponses [] = s := by
  simp [State.addResponses]

@[simp] theorem State.addResponses_addResponses (s : State) (rs rs' : List Response) :
    (s.addResponses rs).addResponses rs' = s.addResponses (rs ++ rs') := by
  simp [State.addResponses, List.append_assoc]

theorem exec_addResponses (i : Instr) (s t : State) (rs : List Response) (h : exec i s = .next t) :
    exec i (s.addResponses rs) = .next (t.addResponses rs) := by
  have ho := exec_withOwn i s s.schedule s.responses
  rw [show s.withOwn s.schedule s.responses = s from rfl, h] at ho
  simp only [mapNext, Host.Outcome.next.injEq] at ho
  have h1 : t.schedule = s.schedule := by rw [ho]; rfl
  have h2 : t.responses = s.responses := by rw [ho]; rfl
  have hn := exec_withOwn i s s.schedule (s.responses ++ rs)
  rw [h] at hn
  rw [show s.addResponses rs = s.withOwn s.schedule (s.responses ++ rs) from rfl, hn, mapNext]
  rw [show t.addResponses rs = t.withOwn t.schedule (t.responses ++ rs) from rfl, h1, h2]

/-- An atomic step does the same whatever the host has read before. -/
theorem engineStep_addResponses (s t : State) (rs : List Response) (h : engineStep s = .next t) :
    engineStep (s.addResponses rs) = .next (t.addResponses rs) := by
  have hp : (s.addResponses rs).pend = s.pend := rfl
  have he : (s.addResponses rs).errf = s.errf := rfl
  unfold engineStep at h ⊢
  rw [hp, he]
  cases hs : s.pend with
  | none =>
    rw [hs] at h
    cases h
    rfl
  | some q =>
    rw [hs] at h
    cases hf : s.errf with
    | true =>
      rw [hf] at h
      cases h
      rfl
    | false =>
      rw [hf] at h
      simp only [Bool.false_eq_true, if_false] at h ⊢
      cases hd : decode q.word with
      | error e =>
        rw [hd] at h
        cases h
        rfl
      | ok i =>
        rw [hd] at h
        cases i <;> first | exact exec_addResponses _ s t rs h | (cases h; rfl)

/-- BUSY is bit 0 of STATUS (R35). -/
theorem status_busy (s : State) : s.status.getLsbD 0 = s.busy := by
  simp [State.status, flagWord]

/-- ERR is bit 1 of STATUS (R35). -/
theorem status_err (s : State) : statusErr s.status = s.errf := by
  simp [State.status, flagWord, statusErr]

@[simp] theorem State.lastRead_respond (s : State) (off : BitVec 8) (d : Word) :
    (s.respond off d).lastRead = d := by
  simp [State.lastRead, State.respond]

/-- Where a program ends, its events have run one after another. -/
theorem performAll_of_follow {α : Type} (es : List Event) (p : HostProg α) (s t : State) (a : α)
    (h : p.follow es s = some (t, a)) : performAll es s = .next t := by
  induction es generalizing p s with
  | nil =>
    cases p with
    | ret b =>
      simp only [HostProg.follow, Option.some.injEq, Prod.mk.injEq] at h
      rw [performAll_nil, h.1]
    | _ => simp [HostProg.follow] at h
  | cons e es ih =>
    simp only [HostProg.follow] at h
    cases hp : perform e s with
    | next u =>
      rw [hp] at h
      rw [performAll_cons e es s u hp]
      simp only at h
      split_ifs at h
      · exact ih _ u h
      · exact ih _ u h
    | fault r => cases r
    | refused r =>
      rw [hp] at h
      cases h

/-- `Ends`, without the machine's steps, which follow. -/
theorem ends_iff {α : Type} (p : HostProg α) (s : State) (post : State → α → Prop) :
    p.Ends s post ↔ (∃ es t a, p.follow es s = some (t, a))
      ∧ ∀ es t a, p.follow es s = some (t, a) → post t a :=
  and_congr_right fun _ => ⟨fun h es t a hf => (h es t a hf).2, fun h es t a hf =>
    ⟨runSeq_of_performAll es s t (performAll_of_follow es p s t a hf), h es t a hf⟩⟩

theorem Ends.mono {α : Type} {p : HostProg α} {s : State} {post post' : State → α → Prop}
    (h : p.Ends s post) (hi : ∀ t a, post t a → post' t a) : p.Ends s post' :=
  ⟨h.1, fun es t a hf => ⟨(h.2 es t a hf).1, hi t a (h.2 es t a hf).2⟩⟩

/-- A program that has ended, with nothing pending. -/
theorem ends_ret {α : Type} (a : α) (s : State) (post : State → α → Prop) (hp : s.pend = none)
    (h : post s a) : (HostProg.ret a).Ends s post := by
  rw [ends_iff]
  refine ⟨⟨[], s, a, rfl⟩, fun es t b hf => ?_⟩
  cases es with
  | nil =>
    simp only [HostProg.follow, Option.some.injEq, Prod.mk.injEq] at hf
    rw [← hf.1, ← hf.2]
    exact h
  | cons e es =>
    simp only [HostProg.follow] at hf
    cases he : perform e s with
    | next u => simp [he, State.busy, hp, HostProg.access] at hf
    | fault r => cases r
    | refused r => simp [he] at hf

/-- With nothing pending, a program's next event is its next access. -/
theorem ends_access {α : Type} (p : HostProg α) (e : Event) (s u : State)
    (post : State → α → Prop) (hp : s.pend = none) (ha : p.access = some e) (he : e ≠ .engine)
    (hu : perform e s = .next u) (h : (p.resume u.lastRead).Ends u post) : p.Ends s post := by
  rw [ends_iff] at h ⊢
  obtain ⟨⟨es, t, a, hf⟩, hall⟩ := h
  refine ⟨⟨e :: es, t, a, ?_⟩, fun fs t a hf => ?_⟩
  · simp only [HostProg.follow, hu, if_neg he, ha, if_true]
    exact hf
  · cases fs with
    | nil => cases p <;> simp [HostProg.follow, HostProg.access] at hf ha
    | cons f fs =>
      simp only [HostProg.follow] at hf
      cases hpf : perform f s with
      | next v =>
        rw [hpf] at hf
        simp only [State.busy, hp, Option.isSome_none, Bool.false_eq_true, if_false, ha,
          Option.some.injEq] at hf
        split_ifs at hf with h1 h2
        subst h2
        rw [hu] at hpf
        cases hpf
        exact hall fs t a hf
      | fault r => cases r
      | refused r =>
        rw [hpf] at hf
        cases hf

/-- `wr`, with nothing pending. -/
theorem ends_write {α : Type} (off : Nat) (v : Word) (rest : HostProg α) (s u : State)
    (post : State → α → Prop) (ho : off < 256) (hp : s.pend = none)
    (hu : busWrite (BitVec.ofNat 8 off) v s = .next u) (h : rest.Ends u post) :
    (HostProg.write off v rest).Ends s post :=
  ends_access _ (wr off v) s u post hp rfl nofun (by rw [perform_wr off ho, hu]) h

/-- `rd`, with nothing pending. -/
theorem ends_read {α : Type} (off : Nat) (rest : Word → HostProg α) (s : State)
    (post : State → α → Prop) (ho : off < 256) (hp : s.pend = none)
    (h : ∀ rs, (rest (busRead (BitVec.ofNat 8 off) s)).Ends (s.addResponses rs) post) :
    (HostProg.read off rest).Ends s post := by
  refine ends_access _ (rd off) s _ post hp rfl nofun (perform_rd off ho s) ?_
  rw [State.lastRead_respond]
  exact h _

/-- `wait` ends, after any number of reads that find BUSY = 1, with a read of the STATUS that the engine step
of the pending command leaves. -/
theorem ends_wait {α : Type} (rest : Word → HostProg α) (s t : State) (post : State → α → Prop)
    (hs : s.pend ≠ none) (ht : t.pend = none) (hx : engineStep s = .next t)
    (h : ∀ rs, (rest t.status).Ends (t.addResponses rs) post) (rs : List Response) :
    (HostProg.wait rest).Ends (s.addResponses rs) post := by
  have hbs : s.busy = true := by
    cases hp : s.pend with
    | none => exact absurd hp hs
    | some q => simp [State.busy, hp]
  have hbt : t.status.getLsbD 0 = false := by
    rw [status_busy]
    simp [State.busy, ht]
  -- after the engine step
  have hdone : ∀ rs : List Response, (HostProg.wait rest).Ends (t.addResponses rs) post := by
    intro rs
    refine ends_access _ (rd offStatus) _ _ post ht rfl nofun
      (perform_rd offStatus (by decide) _) ?_
    rw [State.lastRead_respond, show busRead (BitVec.ofNat 8 offStatus) (t.addResponses rs)
      = t.status from rfl, HostProg.resume, hbt]
    have h' := h (rs ++ [{ off := BitVec.ofNat 8 offStatus, data := t.status }])
    rw [← State.addResponses_addResponses] at h'
    exact h'
  have hxr : ∀ rs : List Response, perform .engine (s.addResponses rs) = .next (t.addResponses rs) := fun rs =>
    engineStep_addResponses s t rs hx
  rw [ends_iff]
  constructor
  · obtain ⟨⟨es, v, a, hf⟩, _⟩ := (ends_iff _ _ _).1 (hdone rs)
    refine ⟨.engine :: es, v, a, ?_⟩
    rw [HostProg.follow, hxr]
    have hb : (s.addResponses rs).busy = true := hbs
    simp only [if_true, hb]
    exact hf
  · intro es
    induction es generalizing rs with
    | nil => intro v a hf; simp [HostProg.follow] at hf
    | cons e es ih =>
      intro v a hf
      by_cases he : e = .engine
      · subst he
        have hb : (s.addResponses rs).busy = true := hbs
        rw [HostProg.follow, hxr] at hf
        simp only [if_true, hb] at hf
        exact ((ends_iff _ _ _).1 (hdone rs)).2 es v a hf
      · by_cases ha : (HostProg.wait rest).access = some e
        · simp only [HostProg.access, Option.some.injEq] at ha
          subst ha
          rw [HostProg.follow, perform_rd offStatus (by decide)] at hf
          simp only [if_neg he, HostProg.access, if_true, State.lastRead_respond] at hf
          rw [show busRead (BitVec.ofNat 8 offStatus) (s.addResponses rs) = s.status from rfl,
            HostProg.resume, if_pos (by rw [status_busy]; exact hbs)] at hf
          refine ih (rs ++ [{ off := BitVec.ofNat 8 offStatus, data := s.status }]) v a ?_
          rw [← State.addResponses_addResponses]
          exact hf
        · rw [HostProg.follow] at hf
          cases hp : perform e (s.addResponses rs) with
          | next w => simp [hp, he, ha] at hf
          | fault r => cases r
          | refused r => simp [hp] at hf

/-- R88, `do M`: from a block with an empty slot and no error, the command executes with DIN and TAGIN as they
are, and what follows depends on whether it recorded an error. -/
theorem ends_doCmd {α : Type} (onError : Option α) (i : Instr) (rest : HostProg α) (s t : State)
    (post : State → α → Prop) (hp : s.pend = none) (he : s.errf = false)
    (hd : decode (encode i) = .ok i) (hi : i ≠ .clear) (hc : encode i ≠ clearWord)
    (hx : exec i (s.acceptCmd (encode i)) = .next t) (ht : t.pend = none)
    (h : ∀ rs, (stopIf onError t.errf rest).Ends (t.addResponses rs) post) :
    (doCmd onError i rest).Ends s post := by
  refine ends_write offCmd _ _ s (s.acceptCmd (encode i)) post (by decide) hp ?_ ?_
  · show cmdWrite (encode i) s = _
    simp [cmdWrite, hc, he, State.busy, hp]
  · have hx' : engineStep (s.acceptCmd (encode i)) = .next t := by
      rw [← hx, engineStep]
      simp only [show (s.acceptCmd (encode i)).pend
        = some { word := encode i, din := s.din, tagin := s.tagin } from rfl,
        show (s.acceptCmd (encode i)).errf = s.errf from rfl, he, hd, Bool.false_eq_true, if_false]
    have hw := ends_wait (fun status => stopIf onError (statusErr status) rest) (s.acceptCmd (encode i)) t post
      (by simp [State.acceptCmd]) ht hx' (by intro rs; rw [status_err]; exact h rs) []
    rw [State.addResponses_nil] at hw
    exact hw

/-- R172: without an error the program goes on. -/
theorem stopIf_false {α : Type} (onError : Option α) (rest : HostProg α) :
    stopIf onError false rest = rest := by
  cases onError <;> rfl

/-- R88, `ldblk DIN, b`, with nothing pending. -/
theorem ends_ldblk_din {α : Type} (b : Block) (rest : HostProg α) (s : State)
    (post : State → α → Prop) (hp : s.pend = none) (h : rest.Ends { s with din := b } post) :
    (ldblk offDin b rest).Ends s post := by
  rw [← setBlockWord_all s.din b] at h
  exact ends_write _ _ _ s _ post (by decide) hp rfl <|
    ends_write _ _ _ _ _ post (by decide) hp rfl <|
    ends_write _ _ _ _ _ post (by decide) hp rfl <|
    ends_write _ _ _ _ _ post (by decide) hp rfl h

/-- R88, `ldblk TAGIN, b`, with nothing pending. -/
theorem ends_ldblk_tagin {α : Type} (b : Block) (rest : HostProg α) (s : State)
    (post : State → α → Prop) (hp : s.pend = none) (h : rest.Ends { s with tagin := b } post) :
    (ldblk offTagin b rest).Ends s post := by
  rw [← setBlockWord_all s.tagin b] at h
  exact ends_write _ _ _ s _ post (by decide) hp rfl <|
    ends_write _ _ _ _ _ post (by decide) hp rfl <|
    ends_write _ _ _ _ _ post (by decide) hp rfl <|
    ends_write _ _ _ _ _ post (by decide) hp rfl h

/-- R53: the words of a block give the block back. -/
theorem blockOfWords_blockWord (x : Block) :
    blockOfWords (blockWord x 0) (blockWord x 1) (blockWord x 2) (blockWord x 3) = x :=
  setBlockWord_all 0 x

/-- R88, `rdblk DOUT`, with nothing pending. -/
theorem ends_rdblk_dout {α : Type} (rest : Block → HostProg α) (s : State)
    (post : State → α → Prop) (hp : s.pend = none)
    (h : ∀ rs, (rest s.dout).Ends (s.addResponses rs) post) :
    (rdblk offDout rest).Ends s post := by
  refine ends_read _ _ s post (by decide) hp fun r0 => ends_read _ _ _ post (by decide) hp fun r1 =>
    ends_read _ _ _ post (by decide) hp fun r2 => ends_read _ _ _ post (by decide) hp fun r3 => ?_
  rw [State.addResponses_addResponses, State.addResponses_addResponses,
    State.addResponses_addResponses]
  have h' := h (r0 ++ r1 ++ r2 ++ r3)
  rw [← blockOfWords_blockWord s.dout] at h'
  exact h'

/-- R88, `rdblk TAG`, with nothing pending. -/
theorem ends_rdblk_tag {α : Type} (rest : Block → HostProg α) (s : State)
    (post : State → α → Prop) (hp : s.pend = none)
    (h : ∀ rs, (rest s.tagView).Ends (s.addResponses rs) post) :
    (rdblk offTag rest).Ends s post := by
  refine ends_read _ _ s post (by decide) hp fun r0 => ends_read _ _ _ post (by decide) hp fun r1 =>
    ends_read _ _ _ post (by decide) hp fun r2 => ends_read _ _ _ post (by decide) hp fun r3 => ?_
  rw [State.addResponses_addResponses, State.addResponses_addResponses,
    State.addResponses_addResponses]
  have h' := h (r0 ++ r1 ++ r2 ++ r3)
  rw [← blockOfWords_blockWord s.tagView] at h'
  exact h'

/-- R88, `cmd CLEAR`. -/
theorem ends_clear {α : Type} (rest : HostProg α) (s : State) (post : State → α → Prop)
    (hp : s.pend = none) (h : rest.Ends s.clearBlock post) : (cmd .clear rest).Ends s post :=
  ends_write offCmd _ _ s s.clearBlock post (by decide) hp rfl h

end Sys2Proof.Machine
end

