-- ==== Sys2Proof/Tests/Slice0.lean ====
section
/-! SUPPORT. Tests of the model on fixed values, and for every statement with hypotheses a concrete state that
meets them. The expected values are those of 95_test_vectors.md, or written out from the rule named. -/

open Sys2Proof Sys2Proof.Machine

namespace Sys2Proof.Tests

/-! ### Well-formedness and decoding -/

/-- R80: LEN is five bits: 31 fits. -/
theorem test_lengths_that_fit_are_well_formed :
    (Instr.abs .ad true 31).wellFormed = true ∧ (Instr.ks false 0).wellFormed = true
      ∧ (Instr.ksabs true 16).wellFormed = true ∧ (Instr.init true false).wellFormed = true := by
  decide

/-- R80: 32 does not fit LEN, in any of the three commands that have a length. -/
theorem test_abs_length_32_is_ill_formed : (Instr.abs .pt true 32).wellFormed = false := by decide
theorem test_ks_length_32_is_ill_formed : (Instr.ks true 32).wellFormed = false := by decide
theorem test_ksabs_length_32_is_ill_formed : (Instr.ksabs false 32).wellFormed = false := by decide

/-- R80, by hand: RSV(18) SRC PTP ADP SEG FIN LEN(5) OP(4), INIT 1, 1. -/
theorem test_decode_init :
    decode 0b000000000000000000_0_1_1_0_0_00000_0001 = .ok (.init true true)
      ∧ decode 0b000000000000000000_0_1_0_0_0_00000_0001 = .ok (.init false true) := ⟨rfl, rfl⟩

/-- R80, by hand: ABS.PT.F 15 and ABS.AD 16. -/
theorem test_decode_abs :
    decode 0b000000000000000000_0_0_0_1_1_01111_0010 = .ok (.abs .pt true 15)
      ∧ decode 0b000000000000000000_0_0_0_0_0_10000_0010 = .ok (.abs .ad false 16) := ⟨rfl, rfl⟩

/-- R80, by hand: KSEED TAGIN and KSEED TAG. -/
theorem test_decode_kseed :
    decode 0b000000000000000000_1_0_0_0_0_00000_0011 = .ok (.kseed .tagin)
      ∧ decode 0b000000000000000000_0_0_0_0_0_00000_0011 = .ok (.kseed .tag) := ⟨rfl, rfl⟩

/-- R80, by hand: KS.F 5 and KS 16. -/
theorem test_decode_ks :
    decode 0b000000000000000000_0_0_0_0_1_00101_0100 = .ok (.ks true 5)
      ∧ decode 0b000000000000000000_0_0_0_0_0_10000_0100 = .ok (.ks false 16) := ⟨rfl, rfl⟩

/-- R80, by hand: KSABS.F 2 and KSABS 16. -/
theorem test_decode_ksabs :
    decode 0b000000000000000000_0_0_0_0_1_00010_0101 = .ok (.ksabs true 2)
      ∧ decode 0b000000000000000000_0_0_0_0_0_10000_0101 = .ok (.ksabs false 16) := ⟨rfl, rfl⟩

/-- R80, by hand: VERIFY. -/
theorem test_decode_verify :
    decode 0b000000000000000000_0_0_0_0_0_00000_0110 = .ok .verify := rfl

/-- R80, by hand: CLEAR. -/
theorem test_decode_clear :
    decode 0b000000000000000000_0_0_0_0_0_00000_0111 = .ok .clear := rfl

/-- 95_test_vectors.md 3.11, the ILLEGAL rows. -/
theorem test_decode_refuses :
    decode 0x00000008 = .error .reservedOpcode ∧ decode 0x0000000F = .error .reservedOpcode
      ∧ decode 0x00000017 = .error .strayBit ∧ decode 0x00000011 = .error .strayBit
      ∧ decode 0x00001003 = .error .strayBit ∧ decode 0x00000016 = .error .strayBit
      ∧ decode 0x00004302 = .error .strayBit ∧ decode 0x00010002 = .error .strayBit :=
  ⟨rfl, rfl, rfl, rfl, rfl, rfl, rfl, rfl⟩

/-- R84, R86: a length R84 forbids decodes; the check is made when the command executes. -/
theorem test_decode_keeps_illegal_length : decode 0x00000312 = .ok (.abs .ad true 17) := rfl

/-- 95_test_vectors.md 3.4 to 3.9, the words of the commands. -/
theorem test_encode_words :
    encode (.init false true) = 0x00001001 ∧ encode (.abs .pt true 15) = 0x000006F2
      ∧ encode (.kseed .tagin) = 0x00002003 ∧ encode (.ks true 5) = 0x00000254
      ∧ encode (.ksabs true 2) = 0x00000225 ∧ encode .verify = 0x00000006
      ∧ encode .clear = 0x00000007 := by decide

theorem test_decode_table_word :
    decodeTableWord 32 0x00001801 = some (.init true true) ∧ decodeTableWord 32 0 = none := ⟨rfl, rfl⟩

/-! ### The pure functions -/

/-- 95_test_vectors.md 3.2. -/
theorem test_pad :
    padBlock 0xa0a1a2a3a4a5a6a7a8a9aaabacadaeaf 1 = 0xa0800000000000000000000000000000
      ∧ padBlock 0xa0a1a2a3a4a5a6a7a8a9aaabacadaeaf 3 = 0xa0a1a280000000000000000000000000
      ∧ padBlock 0xa0a1a2a3a4a5a6a7a8a9aaabacadaeaf 15 = 0xa0a1a2a3a4a5a6a7a8a9aaabacadae80
      ∧ padBlock 0xa0a1a2a3a4a5a6a7a8a9aaabacadaeaf 16 = 0xa0a1a2a3a4a5a6a7a8a9aaabacadaeaf := by
  decide

/-- 95_test_vectors.md 3.3, rows 2, 3, 6, 7, 8 and 9. -/
theorem test_dbl :
    dblBlock 0x1 = 0x2 ∧ dblBlock 0x80000000000000000000000000000000 = 0x87
      ∧ dblBlock 0xc0000000000000000000000000000000 = 0x80000000000000000000000000000087
      ∧ dblBlock 0xffffffffffffffffffffffffffffffff = 0xffffffffffffffffffffffffffffff79
      ∧ dblBlock 0x80808080808080808080808080808080 = 0x01010101010101010101010101010187
      ∧ dblBlock 0x000102030405060708090a0b0c0d0e0f = 0x00020406080a0c0e10121416181a1c1e := by
  decide

/-- 95_test_vectors.md 3.4. -/
theorem test_dsb :
    dsbBlock false false = 0 ∧ dsbBlock false true = 0x40000000000000000000000000000000
      ∧ dsbBlock true false = 0x80000000000000000000000000000000
      ∧ dsbBlock true true = 0xc0000000000000000000000000000000 := by decide

/-- 95_test_vectors.md section 1: the test cipher TC1. -/
def tc1 (x : Block) : Block :=
  blockOfFn fun i => 3 * blockByte x ((i + 1) % 16) + 0x5A + BitVec.ofNat 8 i

/-- 95_test_vectors.md 3.5: ABS.AD 16 and ABS.AD.F 3 after INIT 1, 1. -/
theorem test_absorbBlock :
    absorbBlock tc1 false 16 0 (tc1 (dsbBlock true true)) = 0x6b6f73777b7f83878b8f93979b9f6377
      ∧ absorbBlock tc1 true 3 0xaabbcceeeeeeeeeeeeeeeeeeeeeeeeee (tc1 (dsbBlock true true))
        = 0x9dbe8a91989fa6adb4bbc2c9d0dae70c := by decide +kernel

/-- 95_test_vectors.md 2.1, S1 to S3. -/
theorem test_mac :
    mac tc1 [] [] = 0x5a5b5c5d5e5f60616263646566676869
      ∧ mac tc1 [] (List.replicate 16 0) = 0x7c838a91989fa6adb4bbc2c9d0d75e85
      ∧ mac tc1 (List.replicate 16 0) [] = 0x7c838a91989fa6adb4bbc2c9d0dade85 := by decide +kernel

/-- 95_test_vectors.md 2.1, S5: 17 bytes, both partial-block paths. -/
theorem test_encrypt_17_bytes :
    encrypt tc1 [] ((List.range 17).map (BitVec.ofNat 8)) =
      ([0xb7, 0xf4, 0x16, 0xb1, 0xcc, 0xb3, 0xca, 0xbd, 0xd8, 0x07, 0x2e, 0x69, 0xe3, 0xf0, 0x12,
        0xbe, 0x29], 0x181fdee8c7ce1d24737a3940ff83323c) := by decide +kernel

/-- 95_test_vectors.md 2.1, S5: a flipped ciphertext bit fails authentication. -/
theorem test_decrypt_flipped_bit :
    decrypt tc1 [] [0xb7, 0xf4, 0x16, 0xb1, 0xcc, 0xb3, 0xca, 0xbd, 0xd8, 0x07, 0x2e, 0x69, 0xe3,
      0xf0, 0x12, 0xbe, 0x28] 0x181fdee8c7ce1d24737a3940ff83323c = none := by decide +kernel

/-- 95_test_vectors.md 3.7: two keystream blocks from one seed, the second of 5 bytes. -/
theorem test_ofb :
    (ofb tc1 0x000102030405060708090a0b0c0d0e0f (List.replicate 16 0 ++ List.replicate 5 0xff)).1
      = [0x5d, 0x61, 0x65, 0x69, 0x6d, 0x71, 0x75, 0x79, 0x7d, 0x81, 0x85, 0x89, 0x8d, 0x91, 0x95,
        0x69, 0x82, 0x75, 0x68, 0x5b, 0x4e] := by decide

/-! ### The commands: one step each -/

/-- After reset with a key (95_test_vectors.md section 1). -/
def keyed : State := { State.reset with keyReady := true }

/-- `s` with the command word `w` accepted: the engine step is what happens next. -/
def pending (w : Word) (s : State) : State := s.acceptCmd w

/-- The state after one step; the same state where the step stops. -/
def after (s : State) : State :=
  match step s with
  | .next t => t
  | .fault _ => s
  | .refused _ => s

/-- 95_test_vectors.md 3.4: INIT 0, 1. -/
theorem test_init_pt :
    (after (pending 0x00001001 keyed)).regV = Config.E 0x40000000000000000000000000000000
      ∧ (after (pending 0x00001001 keyed)).status = 0x00000C40
      ∧ (after (pending 0x00001001 keyed)).irqPend = 1 := ⟨rfl, rfl, rfl⟩

/-- 95_test_vectors.md 3.11: INIT without a key. -/
theorem test_init_no_key :
    (after (pending 0x00001801 State.reset)).status = 0x00000002
      ∧ (after (pending 0x00001801 State.reset)).errWord = 4 := ⟨rfl, rfl⟩

/-- 95_test_vectors.md 3.5: ABS.AD.F 16 after INIT 1, 1, under any cipher: `dbl(c0 00 ..)` where V is the
DSB (the TC0 example). -/
theorem test_abs_final :
    (after (pending 0x00000302 { keyed with
      absPhase := .ad, adp := true, ptp := true,
      regV := 0xc0000000000000000000000000000000 })).regV
        = Config.E 0x80000000000000000000000000000087
      ∧ (after (pending 0x00000302 { keyed with
      absPhase := .ad, adp := true, ptp := true })).status = 0x00000E40 :=
  ⟨congrArg Config.E (by decide : dblBlock (0xc0000000000000000000000000000000 ^^^ padBlock 0 16)
    = 0x80000000000000000000000000000087), rfl⟩

/-- 95_test_vectors.md 3.11: ABS.PT.F 16 while AD. -/
theorem test_abs_wrong_segment :
    (after (pending 0x00000702 { keyed with absPhase := .ad, adp := true, ptp := true })).status
        = 0x00000E22
      ∧ (after (pending 0x00000702 { keyed with absPhase := .ad, adp := true, ptp := true })).cause
        = .sequence := ⟨rfl, rfl⟩

/-- 95_test_vectors.md 3.6: KSEED TAGIN without a key. -/
theorem test_kseed_tagin_needs_no_key :
    (after (pending 0x00002003 { State.reset with tagin := 0x000102030405060708090a0b0c0d0e0f })).regS
        = 0x000102030405060708090a0b0c0d0e0f
      ∧ (after (pending 0x00002003 { State.reset with
        tagin := 0x000102030405060708090a0b0c0d0e0f })).status = 0x00000080 := ⟨rfl, rfl⟩

/-- 95_test_vectors.md 3.11: KSEED while KRUN. -/
theorem test_kseed_while_running :
    (after (pending 0x00002003 { keyed with ksPhase := .krun })).status = 0x00000882 := rfl

/-- 95_test_vectors.md 3.7: the phase and STATUS after KS.F 5; S is a whole cipher output. -/
theorem test_ks_final :
    (after (pending 0x00000254 { keyed with ksPhase := .krun, regS := 7 })).status = 0x00000900
      ∧ (after (pending 0x00000254 { keyed with ksPhase := .krun, regS := 7 })).regS = Config.E 7 :=
  ⟨rfl, rfl⟩

/-- 95_test_vectors.md 3.11: KS.F 16 without a key. -/
theorem test_ks_no_key :
    (after (pending 0x00000304 { State.reset with ksPhase := .krun })).status = 0x00000082
      ∧ (after (pending 0x00000304 { State.reset with ksPhase := .krun })).errWord = 4 := ⟨rfl, rfl⟩

/-- 95_test_vectors.md 3.8: STATUS after KSABS.F 2: both phases end together. -/
theorem test_ksabs_final :
    (after (pending 0x00000225 { keyed with ksPhase := .krun, absPhase := .pt, ptp := true })).status
      = 0x00000D64 := rfl

/-- 95_test_vectors.md 3.11: KSABS.F 16 while AD. -/
theorem test_ksabs_wrong_phase :
    (after (pending 0x00000305 { keyed with
      ksPhase := .krun, absPhase := .ad, adp := true, ptp := true })).status = 0x00000EA2 := rfl

/-- 95_test_vectors.md 3.9: equal tags. -/
theorem test_verify_ok :
    (after (pending 0x00000006 { keyed with
      absPhase := .tagrdy, regV := 0x5a5b5c5d5e5f60616263646566676869,
      tagin := 0x5a5b5c5d5e5f60616263646566676869, dout := 9 })).status = 0x0000086C
      ∧ (after (pending 0x00000006 { keyed with
      absPhase := .tagrdy, regV := 0x5a5b5c5d5e5f60616263646566676869,
      tagin := 0x5a5b5c5d5e5f60616263646566676869, dout := 9 })).dout = 9 := by decide

/-- 95_test_vectors.md 3.9: tags that differ in byte 15. -/
theorem test_verify_fail :
    (after (pending 0x00000006 { keyed with
      absPhase := .tagrdy, regV := 0x5a5b5c5d5e5f60616263646566676869,
      tagin := 0x5a5b5c5d5e5f60616263646566676868, dout := 9 })).status = 0x00000874
      ∧ (after (pending 0x00000006 { keyed with
      absPhase := .tagrdy, regV := 0x5a5b5c5d5e5f60616263646566676869,
      tagin := 0x5a5b5c5d5e5f60616263646566676868, dout := 9 })).irqPend = 5 := by decide

/-- 95_test_vectors.md 3.10: CLEAR while INIT is pending: the slot is emptied, IRQ_EN stays. -/
theorem test_clear_discards_pending :
    step { pending 0x00001801 { keyed with irqEn := 5, din := 1 } with
      schedule := [cmdWriteEvent 7] } = .next { keyed with irqEn := 5 } := rfl

/-! ### The bus -/

/-- 95_test_vectors.md 3.1: the reads from reset with a key. -/
theorem test_bus_reads :
    busRead 0x00 keyed = 0x53554E44 ∧ busRead 0x03 keyed = 0x53554E44 ∧ busRead 0x04 keyed = 0
      ∧ busRead 0x18 keyed = 0 ∧ busRead 0xFC keyed = 0 ∧ busRead 0x08 keyed = 0x00000800
      ∧ busRead 0x40 { keyed with regV := 5 } = 0 := by decide

/-- 95_test_vectors.md 3.1: the TAG words after INIT 0, 0 under TC1. -/
theorem test_tag_lanes :
    blockWord 0x5a5b5c5d5e5f60616263646566676869 0 = 0x5D5C5B5A
      ∧ blockWord 0x5a5b5c5d5e5f60616263646566676869 3 = 0x69686766 := by decide

/-- 95_test_vectors.md 3.1: a misaligned write reaches DIN0. -/
theorem test_bus_write_din :
    busWrite 0x21 0x03020100 keyed = .next { keyed with din := 0x00010203000000000000000000000000 } :=
  rfl

/-- 95_test_vectors.md 3.1 and 3.12: IRQ_EN keeps three bits; IRQ_PEND is cleared by ones. -/
theorem test_irq_writes :
    busWrite 0x10 0xFFFFFFFF keyed = .next { keyed with irqEn := 7 }
      ∧ busWrite 0x14 4 { keyed with irqPend := 5 } = .next { keyed with irqPend := 1 } :=
  ⟨rfl, rfl⟩

/-- 95_test_vectors.md 3.12: the line while DONE is pending, enabled and not. -/
theorem test_irq_line :
    ({ keyed with irqEn := 7, irqPend := 1 } : State).irq = true
      ∧ ({ keyed with irqEn := 0, irqPend := 5 } : State).irq = false := by decide

/-- 95_test_vectors.md 3.11, BUSY: a second command word while INIT is pending. -/
theorem test_busy :
    (after { pending 0x00001801 keyed with schedule := [cmdWriteEvent 1] }).status = 0x00000803
      ∧ (after { pending 0x00001801 keyed with schedule := [cmdWriteEvent 1] }).errWord = 5 :=
  ⟨rfl, rfl⟩

/-- R187: the checks of a word in their order (95_test_vectors.md 3.11). -/
theorem test_check_priority :
    checkWord 0x00010002 keyed = .illegal ∧ checkWord 0x00000202 keyed = .badLen
      ∧ checkWord 0x00000304 State.reset = .sequence ∧ checkWord 0x00001801 State.reset = .noKey := by
  decide

/-- Log entry 10: a word placed for the next step runs in it, CLEAR in its CMD write. -/
theorem test_with_fetch_word :
    step (State.reset.withFetchWord 32 0x00001801)
        = exec (.init true true) (pending 0x00001801 State.reset)
      ∧ step (State.reset.withFetchWord 32 7) = exec .clear State.reset := ⟨rfl, rfl⟩

/-! ### The key and the host -/

/-- 95_test_vectors.md 3.11, last row: KEY_READY falls after KSEED TAGIN, before any INIT: a step. -/
theorem test_key_drop_before_init :
    perform (.keyReady false) { keyed with ksPhase := .krun } =
      .next { keyed with ksPhase := .krun, keyReady := false } := rfl

/-- R224: a drop of KEY_READY between two blocks of a segment, and between the tag and KSEED TAG. -/
theorem test_key_drop_in_operation :
    perform (.keyReady false) { keyed with absPhase := .ad, adp := true } =
        .refused .keyDropInOperation
      ∧ perform (.keyReady false) { keyed with absPhase := .tagrdy, ptp := true } =
        .refused .keyDropInOperation := ⟨rfl, rfl⟩

/-- 95_test_vectors.md 3.9, last row: KEY_READY falls after INIT 0, 0: a step. -/
theorem test_key_drop_without_plaintext :
    perform (.keyReady false) { keyed with absPhase := .tagrdy } =
      .next { keyed with absPhase := .tagrdy, keyReady := false } := rfl

/-- R88 `wait`: it reads again while BUSY = 1, and goes on with the STATUS that ended it. -/
theorem test_wait_reads_until_not_busy :
    (HostProg.wait HostProg.ret : HostProg Word).resume 0x00000801 = .wait .ret
      ∧ (HostProg.wait HostProg.ret : HostProg Word).resume 0x00000880 = .ret 0x00000880 := ⟨rfl, rfl⟩

/-- R158: an engine step is part of an interleaving only while a command is pending. -/
theorem test_follow_engine :
    ((HostProg.ret true).follow [.engine] (pending 0x2003 keyed)).map Prod.snd = some true
      ∧ (HostProg.ret true).follow [.engine] keyed = none := ⟨rfl, rfl⟩

/-- R172: the host stops only where it looks at ERR and finds it set. -/
theorem test_stop_if :
    stopIf (some 1) true (.ret 2) = .ret 1 ∧ stopIf (some 1) false (.ret 2) = .ret 2
      ∧ stopIf none true (.ret 2) = .ret 2 := ⟨rfl, rfl, rfl⟩

/-- R175: the tag after the ciphertext (95_test_vectors.md 2.1, S5). -/
theorem test_combined_output :
    combinedOutput ([0xb7, 0xf4], 0x181fdee8c7ce1d24737a3940ff83323c) =
      [0xb7, 0xf4, 0x18, 0x1f, 0xde, 0xe8, 0xc7, 0xce, 0x1d, 0x24, 0x73, 0x7a, 0x39, 0x40, 0xff, 0x83,
        0x32, 0x3c] := by decide

/-! ### Witnesses: encoding and the step -/

/-- The statements' states with a schedule. -/
def sched (s : State) (es : List Event) : State := { s with schedule := es }

/-- A running decryption: key loaded, keystream running, in phase PT. -/
def running : State :=
  { keyed with absPhase := .pt, ptp := true, ksPhase := .krun, regV := 3, regS := 4 }

/-- A finished tag, and no key any more. -/
def tagged : State := { State.reset with absPhase := .tagrdy, regV := 3, tagin := 5 }

/-- The error state, with a pending command. -/
def broken : State := { pending 0x00001801 keyed with errf := true, cause := .busy, irqPend := 2 }

theorem witness_DecodeOfEncodeIsInstruction :
    (Instr.abs .pt true 31).wellFormed = true ∧ (Instr.ks false 0).wellFormed = true := by decide

theorem witness_EncodeOfDecodeIsWord : decode 0x000006F2 = .ok (.abs .pt true 15) := rfl

/-- A word that fails all six masks, in a state whose engine step is next. -/
theorem witness_MasksSelectCommands :
    (pending 0x17 keyed).engineNext = true ∧ (pending 0x17 keyed).pend = some ⟨0x17, 0, 0⟩
      ∧ (pending 0x17 keyed).errf = false
      ∧ (0x17 : Word) &&& 0xFFFFE7FF ≠ 0x1 ∧ (0x17 : Word) &&& 0xFFFFF80F ≠ 0x2
      ∧ (0x17 : Word) &&& 0xFFFFDFFF ≠ 0x3 ∧ (0x17 : Word) &&& 0xFFFFFC0F ≠ 0x4
      ∧ (0x17 : Word) &&& 0xFFFFFC0F ≠ 0x5 ∧ (0x17 : Word) &&& 0xFFFFFFFF ≠ 0x6 := by decide

/-- One word for each kind of reserved word: the lowest stray bit of each opcode, and both ends of the
reserved opcodes. -/
theorem witness_ReservedWordsAreIllegal :
    ((0 : Word).extractLsb' 0 4 = 0) ∧ 8 ≤ ((8 : Word).extractLsb' 0 4).toNat
      ∧ 8 ≤ ((0xF : Word).extractLsb' 0 4).toNat
      ∧ ((0x17 : Word).extractLsb' 0 4 = 7 ∧ (0x17 : Word) ≠ 7)
      ∧ ((0x11 : Word).extractLsb' 0 4 = 1 ∧ (0x11 : Word) &&& 0xFFFFE7F0 ≠ 0)
      ∧ ((0x802 : Word).extractLsb' 0 4 = 2 ∧ (0x802 : Word) &&& 0xFFFFF800 ≠ 0)
      ∧ ((0x13 : Word).extractLsb' 0 4 = 3 ∧ (0x13 : Word) &&& 0xFFFFDFF0 ≠ 0)
      ∧ ((0x404 : Word).extractLsb' 0 4 = 4 ∧ (0x404 : Word) &&& 0xFFFFFC00 ≠ 0)
      ∧ ((0x80000005 : Word).extractLsb' 0 4 = 5 ∧ (0x80000005 : Word) &&& 0xFFFFFC00 ≠ 0)
      ∧ ((0x16 : Word).extractLsb' 0 4 = 6 ∧ (0x16 : Word) &&& 0xFFFFFFF0 ≠ 0)
      ∧ (pending 0 keyed).engineNext = true ∧ (pending 0 keyed).errf = false := by decide

/-- The engine step is next with an empty schedule and with `.engine` at its head; the CLEAR word is
written at both ends of CMD's word. -/
theorem witness_StepRunsDecodedInstruction :
    (pending 6 keyed).engineNext = true ∧ (sched (pending 6 keyed) [.engine, .reset]).engineNext = true
      ∧ (pending 6 keyed).pend = some ⟨6, 0, 0⟩ ∧ (pending 6 keyed).errf = false
      ∧ decode 6 = .ok .verify ∧ Instr.verify ≠ .clear
      ∧ (0x04 : BitVec 8) &&& 0xFC = 0x04 ∧ (0x07 : BitVec 8) &&& 0xFC = 0x04
      ∧ (sched broken [.write (.block 0x07) 4 7]).schedule = .write (.block 0x07) 4 7 :: []
      ∧ decode 7 = .ok .clear := ⟨rfl, rfl, rfl, rfl, rfl, by decide, rfl, rfl, rfl, rfl⟩

theorem witness_PlacedInstructionRunsNext :
    (Instr.ksabs false 16).wellFormed = true ∧ running.errf = false ∧ Instr.clear.wellFormed = true := by
  decide

/-- One state for each of the four clauses. -/
theorem witness_EngineStepFollowsCheck :
    ((sched keyed [.engine]).engineNext = true ∧ (sched keyed [.engine]).pend = none)
      ∧ (broken.engineNext = true ∧ broken.errf = true)
      ∧ ((pending 6 keyed).engineNext = true ∧ (pending 6 keyed).pend = some ⟨6, 0, 0⟩
        ∧ (pending 6 keyed).errf = false ∧ checkWord 6 (pending 6 keyed) ≠ .none)
      ∧ ((pending 0x115 running).engineNext = true ∧ (pending 0x305 running).pend = some ⟨0x305, 0, 0⟩
        ∧ (pending 0x305 running).errf = false
        ∧ checkWord 0x115 (pending 0x115 running) = .badLen
        ∧ checkWord 0x305 (pending 0x305 running) = .none) := by decide

theorem witness_EngineStepEmptiesSlot :
    broken.engineNext = true ∧ broken.pend = some ⟨0x00001801, 0, 0⟩ := by decide

/-- Each refusal is reached. -/
theorem witness_StepsStopOnlyByRefusal :
    step (sched keyed [.read (.block 0xFF) 2]) = .refused (.accessWidth 2)
      ∧ step (sched keyed [.write (.block 0x04) 8 7]) = .refused (.accessWidth 8)
      ∧ step (sched keyed [.keyChange]) = .refused .keyChanged
      ∧ step (sched (pending 6 keyed) [.keyReady false]) = .refused .keyDropWhilePending
      ∧ step (sched running [.keyReady false]) = .refused .keyDropInOperation :=
  ⟨rfl, rfl, rfl, rfl, rfl⟩

/-! ### Witnesses: the commands -/

theorem witness_InitStartsAbsorption : running.keyReady = true := rfl

/-- Both segments. -/
theorem witness_AbsChainsFullBlock :
    ((pending 0x502 running).keyReady = true ∧ (pending 0x502 running).pend = some ⟨0x502, 0, 0⟩
        ∧ (pending 0x502 running).absPhase = (if Segment.pt = .pt then .pt else .ad))
      ∧ ({ pending 0x102 running with absPhase := .ad } : State).absPhase
        = (if Segment.ad = .pt then .pt else .ad) := by decide

/-- The shortest and the longest final block, and both segments. -/
theorem witness_AbsFinishesSegment :
    (1 ≤ 1 ∧ 1 ≤ 16 ∧ 1 ≤ 16 ∧ 16 ≤ 16)
      ∧ (pending 0x612 running).keyReady = true ∧ (pending 0x612 running).pend = some ⟨0x612, 0, 0⟩
      ∧ (pending 0x612 running).absPhase = (if Segment.pt = .pt then .pt else .ad)
      ∧ ({ pending 0x212 running with absPhase := .ad } : State).absPhase
        = (if Segment.ad = .pt then .pt else .ad) := by decide

/-- Both sources, from KIDLE and from KDONE. -/
theorem witness_KseedLoadsSeed :
    (tagged.ksPhase ≠ .krun ∧ tagged.absPhase = .tagrdy)
      ∧ ({ pending 0x2003 keyed with ksPhase := .kdone } : State).ksPhase ≠ .krun
      ∧ (pending 0x2003 keyed).pend = some ⟨0x2003, 0, 0⟩ := by decide

/-- A final block of one byte and a full block that is not final. -/
theorem witness_KsAppliesKeystream :
    (pending 0x214 running).keyReady = true ∧ (pending 0x214 running).pend = some ⟨0x214, 0, 0⟩
      ∧ (pending 0x214 running).ksPhase = .krun
      ∧ (1 ≤ 1 ∧ 1 ≤ 16 ∧ (true = true ∨ 1 = 16)) ∧ (1 ≤ 16 ∧ 16 ≤ 16 ∧ (false = true ∨ 16 = 16)) := by
  decide

theorem witness_KsabsChainsFullBlock :
    (pending 0x105 running).keyReady = true ∧ (pending 0x105 running).pend = some ⟨0x105, 0, 0⟩
      ∧ (pending 0x105 running).ksPhase = .krun ∧ (pending 0x105 running).absPhase = .pt := by decide

theorem witness_KsabsFinishesBoth :
    1 ≤ 1 ∧ 16 ≤ 16 ∧ (pending 0x215 running).keyReady = true
      ∧ (pending 0x215 running).pend = some ⟨0x215, 0, 0⟩
      ∧ (pending 0x215 running).ksPhase = .krun ∧ (pending 0x215 running).absPhase = .pt := by decide

/-- Equal tags, and tags that differ in their last byte only. -/
theorem witness_VerifyComparesTags :
    (pending 6 tagged).pend = some ⟨6, 0, 5⟩ ∧ (pending 6 tagged).absPhase = .tagrdy
      ∧ (∀ i, i < 16 → blockByte (3 : Block) i = blockByte (3 : Block) i)
      ∧ (15 < 16 ∧ blockByte (pending 6 tagged).regV 15 ≠ blockByte (5 : Block) 15) := by decide

/-! ### Witnesses: rejections and errors -/

/-- Lengths on both sides of each bound. -/
theorem witness_IllegalLengthIsBadLen :
    running.errf = false ∧ running.cause = .none
      ∧ ¬ (1 ≤ 0 ∧ 0 ≤ 16 ∧ (true = true ∨ 0 = 16)) ∧ ¬ (1 ≤ 17 ∧ 17 ≤ 16 ∧ (true = true ∨ 17 = 16))
      ∧ ¬ (1 ≤ 15 ∧ 15 ≤ 16 ∧ (false = true ∨ 15 = 16))
      ∧ (1 ≤ 1 ∧ 1 ≤ 16 ∧ (true = true ∨ 1 = 16)) ∧ (1 ≤ 16 ∧ 16 ≤ 16 ∧ (false = true ∨ 16 = 16)) := by
  decide

/-- One state for each command, and for both reasons of KSEED and of KSABS. -/
theorem witness_WrongPhaseIsSequence :
    keyed.errf = false ∧ lenLegal true 1 = true
      ∧ keyed.absPhase ≠ (if Segment.ad = .pt then .pt else .ad)
      ∧ running.ksPhase = .krun ∧ keyed.absPhase ≠ .tagrdy ∧ keyed.ksPhase ≠ .krun
      ∧ tagged.absPhase ≠ .pt ∧ lenLegal false 16 = true := by decide

/-- Each of the four groups of commands, without a key. -/
theorem witness_MissingKeyIsNoKey :
    ({ running with keyReady := false } : State).errf = false
      ∧ ({ running with keyReady := false } : State).keyReady = false
      ∧ lenLegal true 16 = true
      ∧ ({ running with keyReady := false } : State).absPhase
        = (if Segment.pt = .pt then .pt else .ad)
      ∧ ({ running with keyReady := false } : State).ksPhase = .krun := by decide

/-- A rejected command, and a CMD write while a command is pending. -/
theorem witness_ErrorsArePrecise :
    (step (pending 6 keyed) = .next (after (pending 6 keyed)) ∧ (pending 6 keyed).errf = false
        ∧ (after (pending 6 keyed)).errf = true)
      ∧ (step (sched (pending 6 keyed) [.write (.block 0x05) 4 1])
          = .next (after (sched (pending 6 keyed) [.write (.block 0x05) 4 1]))
        ∧ (after (sched (pending 6 keyed) [.write (.block 0x05) 4 1])).errf = true) :=
  ⟨⟨rfl, rfl, rfl⟩, rfl, rfl⟩

/-- A dropped CMD write, a discarded command, and a step that is neither CLEAR nor reset. -/
theorem witness_ErrorStateIsSticky :
    broken.errf = true ∧ registerAt 0x04 = .cmd ∧ registerAt 0x07 = .cmd ∧ (1 : Word) ≠ 0x00000007
      ∧ broken.engineNext = true
      ∧ step (sched broken [.write (.block 0x20) 4 9])
        = .next (after (sched broken [.write (.block 0x20) 4 9]))
      ∧ (sched broken [.write (.block 0x20) 4 9]).executes ≠ some .clear
      ∧ (sched broken [.write (.block 0x20) 4 9]).schedule.head? ≠ some .reset :=
  ⟨rfl, rfl, rfl, by decide, rfl, rfl, by decide, by decide⟩

/-- A completing VERIFY that fails, a CMD write, and a discarded command. -/
theorem witness_StepsSetPendingBits :
    ((pending 6 tagged).engineNext = true ∧ (pending 6 tagged).errf = false
        ∧ step (pending 6 tagged) = .next (after (pending 6 tagged)))
      ∧ (registerAt 0x06 = .cmd ∧ step (sched keyed [.write (.block 0x06) 4 7])
        = .next (after (sched keyed [.write (.block 0x06) 4 7])))
      ∧ (broken.engineNext = true ∧ broken.errf = true ∧ step broken = .next (after broken)) :=
  ⟨⟨rfl, rfl, rfl⟩, ⟨rfl, rfl⟩, rfl, rfl, rfl⟩

/-- Both ends of CMD's word, and a state for each clause. -/
theorem witness_CmdWriteAccepts :
    (0x04 : BitVec 8) &&& 0xFC = 0x04 ∧ (0x07 : BitVec 8) &&& 0xFC = 0x04 ∧ (0 : Word) ≠ 0x00000007
      ∧ broken.errf = true
      ∧ ((pending 6 keyed).errf = false ∧ (pending 6 keyed).pend ≠ none)
      ∧ (keyed.errf = false ∧ keyed.pend = none) := by decide

/-! ### Witnesses: the window -/

/-- An offset for every clause, at the ends of its range. -/
theorem witness_BusWriteByOffset :
    (0x07 : BitVec 8) &&& 0xFC = 0x04 ∧ (0x13 : BitVec 8) &&& 0xFC = 0x10
      ∧ (0x17 : BitVec 8) &&& 0xFC = 0x14
      ∧ ((0x20 : BitVec 8) &&& 0xFC).toNat = 0x20 + 4 * 0
      ∧ ((0x2F : BitVec 8) &&& 0xFC).toNat = 0x20 + 4 * 3
      ∧ ((0x50 : BitVec 8) &&& 0xFC).toNat = 0x50 + 4 * 0
      ∧ ((0x5F : BitVec 8) &&& 0xFC).toNat = 0x50 + 4 * 3
      ∧ (∀ o ∈ ([0x00, 0x0B, 0x1F, 0x30, 0x4F, 0x60, 0xFF] : List (BitVec 8)),
        (o &&& 0xFC).toNat ∉
          [0x04, 0x10, 0x14, 0x20, 0x24, 0x28, 0x2C, 0x50, 0x54, 0x58, 0x5C]) := by decide

/-- An offset for every clause, at the ends of its range. -/
theorem witness_BusReadByOffset :
    (0x03 : BitVec 8) &&& 0xFC = 0x00 ∧ (0x0B : BitVec 8) &&& 0xFC = 0x08
      ∧ (0x0F : BitVec 8) &&& 0xFC = 0x0C ∧ (0x13 : BitVec 8) &&& 0xFC = 0x10
      ∧ (0x17 : BitVec 8) &&& 0xFC = 0x14
      ∧ (∀ p ∈ ([(0x20, 0x20, 0), (0x2F, 0x20, 3), (0x30, 0x30, 0), (0x3F, 0x30, 3), (0x40, 0x40, 0),
          (0x4F, 0x40, 3), (0x50, 0x50, 0), (0x5F, 0x50, 3)] : List (BitVec 8 × Nat × Nat)),
        (p.1 &&& 0xFC).toNat = p.2.1 + 4 * p.2.2 ∧ p.2.2 < 4)
      ∧ (0x07 : BitVec 8) &&& 0xFC = 0x04 ∧ (0x1B : BitVec 8) &&& 0xFC = 0x18
      ∧ (0x1F : BitVec 8) &&& 0xFC = 0x1C ∧ 0x60 ≤ ((0x60 : BitVec 8) &&& 0xFC).toNat := by decide

theorem witness_MisalignedReachesWord :
    (sched broken [.read (decodeAddress 3) 4]).schedule = .read (decodeAddress 3) 4 :: []
      ∧ (sched broken [.write (decodeAddress 7) 4 9]).schedule = .write (decodeAddress 7) 4 9 :: [] :=
  ⟨rfl, rfl⟩

/-- An offset for every range of the statement, at its ends. -/
theorem witness_ReservedReadsZeroWritesIgnored :
    (0x07 : BitVec 8) &&& 0xFC = 0x04 ∧ (0x18 : BitVec 8) &&& 0xFC = 0x18
      ∧ (0x1F : BitVec 8) &&& 0xFC = 0x1C ∧ 0x60 ≤ ((0xFF : BitVec 8) &&& 0xFC).toNat
      ∧ ((0x0F : BitVec 8) &&& 0xFC).toNat ∈ [0x00, 0x08, 0x0C, 0x18, 0x1C]
      ∧ (0x30 ≤ ((0x30 : BitVec 8) &&& 0xFC).toNat ∧ ((0x30 : BitVec 8) &&& 0xFC).toNat < 0x50)
      ∧ ((0x4F : BitVec 8) &&& 0xFC).toNat < 0x50 := by decide

theorem witness_OtherWidthsRefused :
    (1 ≠ 4) ∧ (8 ≠ 4)
      ∧ (sched keyed [.read (.block 0) 1]).schedule = .read (.block 0) 1 :: []
      ∧ (sched keyed [.write (.block 4) 8 7]).schedule = .write (.block 4) 8 7 :: [] := by decide

/-- The last address below the window and the first one above it. -/
theorem witness_WindowDecodesAddresses :
    Config.BASE + 256 ≤ Config.BASE + 256 ∧ (Config.BASE = 0 ∨ Config.BASE - 1 < Config.BASE)
      ∧ (sched keyed [.read .elsewhere 2]).schedule = .read .elsewhere 2 :: []
      ∧ (sched keyed [.write .elsewhere 4 7]).schedule = .write .elsewhere 4 7 :: [] :=
  ⟨Nat.le_refl _, by omega, rfl, rfl⟩

/-- Two blocks with the same words, and two different words of one block. -/
theorem witness_ByteLanesAreLittleEndian :
    (3 < 4 ∧ 0 < 4 ∧ (0 : Nat) ≠ 3)
      ∧ (∀ k, k < 4 → blockWord (dsbBlock true false) k
        = blockWord 0x80000000000000000000000000000000 k) := by decide

/-- Both ends of STATUS's word. -/
theorem witness_StatusFields :
    (0x08 : BitVec 8) &&& 0xFC = 0x08 ∧ (0x0B : BitVec 8) &&& 0xFC = 0x08
      ∧ (sched broken [.write (.block 0x0B) 4 5]).schedule = .write (.block 0x0B) 4 5 :: [] := by decide

/-- A step that raises the line. -/
theorem witness_IrqLineIsEnabledPending :
    step (pending 6 { tagged with irqEn := 4 }) = .next (after (pending 6 { tagged with irqEn := 4 }))
      ∧ (after (pending 6 { tagged with irqEn := 4 })).irq ≠ (pending 6 { tagged with irqEn := 4 }).irq :=
  ⟨rfl, by decide⟩

theorem witness_SecretsAreNotReadable : running.absPhase ≠ .tagrdy := by decide

/-! ### Witnesses: the engines' functions and the sequences -/

/-- Both ends of the byte and bit numbers, and of the integers. -/
theorem witness_BlockIntegerIsBigEndian : 0 < 16 ∧ 15 < 16 ∧ 7 < 8 ∧ 2 ^ 128 - 1 < 2 ^ 128 := by decide

/-- The shortest and the longest padded block, its last byte, and two blocks that agree below R. -/
theorem witness_PaddingBytes :
    (1 ≤ 1 ∧ 1 ≤ 16 ∧ 16 ≤ 16 ∧ 15 < 16)
      ∧ (∀ i, i < 3 → blockByte 0xaabbcc00000000000000000000000000 i
        = blockByte 0xaabbcceeeeeeeeeeeeeeeeeeeeeeeeee i) := by decide

theorem witness_DoublingIsTimesX :
    2 ^ 127 ≤ (0x80000000000000000000000000000000 : Block).toNat
      ∧ ¬ 2 ^ 127 ≤ (0x7fffffffffffffffffffffffffffffff : Block).toNat ∧ 14 < 15 := by decide

theorem witness_DsbBytesAndDistinct :
    dsbBlock true false = dsbBlock true false ∧ dsbBlock true false ≠ dsbBlock false true
      ∧ 1 ≤ 15 ∧ 15 ≤ 15 := by decide

/-- Two DIN snapshots that agree below R = 3, and R = 16 where none differs. -/
theorem witness_BytesBeyondLengthIgnored :
    (pending 0x232 running).pend = some ⟨0x232, 0, 0⟩
      ∧ (∀ k, k < 3 → k < 16 → blockByte (0xee : Block) k = blockByte (0 : Block) k) := by decide

theorem witness_CommandsUseTheirSnapshot :
    (pending 6 tagged).pend = some ⟨6, 0, 5⟩ ∧ Instr.verify ≠ .clear := by decide

theorem witness_GoldenLoopsFollowPseudocode :
    ([0] : List Byte) ≠ [] ∧ 16 < (List.replicate 17 (0 : Byte)).length
      ∧ ¬ 16 < (List.replicate 16 (0 : Byte)).length := by decide

theorem witness_EmptyTagIsEncryptedZero : keyed.keyReady = true := rfl

/-- Both segments for `absorb`; the state after INIT and the state before it. -/
theorem witness_AbsorbSequencesComputeMac :
    ([1] : List Byte) ≠ [] ∧ running.pend = none ∧ running.errf = false ∧ running.keyReady = true
      ∧ running.absPhase = (if Segment.pt = .pt then .pt else .ad)
      ∧ ({ running with absPhase := .ad } : State).absPhase
        = (if Segment.ad = .pt then .pt else .ad) := by decide

/-- Both seeds for `stream KS`, and a state for `stream KSABS`. -/
theorem witness_StreamSequencesComputeOfb :
    ([1] : List Byte) ≠ []
      ∧ (({ tagged with keyReady := true } : State).pend = none
        ∧ ({ tagged with keyReady := true } : State).errf = false
        ∧ ({ tagged with keyReady := true } : State).ksPhase ≠ .krun
        ∧ (SeedSource.tag = .tag → ({ tagged with keyReady := true } : State).absPhase = .tagrdy))
      ∧ (({ running with ksPhase := .kdone } : State).ksPhase ≠ .krun
        ∧ ({ running with ksPhase := .kdone } : State).keyReady = true
        ∧ ({ running with ksPhase := .kdone } : State).absPhase = .pt) := by decide

/-- The states of the statement: ready, with a running keystream, without a key, and in the error state. -/
theorem witness_EncryptSequenceEncrypts :
    (keyed.pend = none ∧ keyed.errf = false ∧ keyed.keyReady = true
        ∧ (([1] : List Byte) ≠ [] → keyed.ksPhase ≠ .krun)
        ∧ (([] : List Byte) ≠ [] → running.ksPhase ≠ .krun))
      ∧ (running.pend = none ∧ running.errf = false ∧ running.keyReady = true
        ∧ ([1] : List Byte) ≠ [] ∧ running.ksPhase = .krun)
      ∧ (State.reset.pend = none ∧ State.reset.errf = false ∧ State.reset.keyReady = false)
      ∧ (({ broken with pend := none } : State).pend = none
        ∧ ({ broken with pend := none } : State).errf = true) := by decide

theorem witness_DecryptSequenceDecrypts :
    keyed.pend = none ∧ keyed.errf = false ∧ keyed.keyReady = true
      ∧ (([1] : List Byte) ≠ [] → keyed.ksPhase ≠ .krun)
      ∧ (([] : List Byte) ≠ [] → running.ksPhase ≠ .krun) := by decide

/-- The last byte of the tag, and a block whose tag is complete. -/
theorem witness_CombinedOutputAppendsTag : 15 < 16 ∧ 3 < 4 ∧ tagged.absPhase = .tagrdy := by decide

/-! ### Witnesses: the whole machine -/

theorem witness_StepKeepsInvariants :
    ({ tagged with pend := some ⟨6, 0, 5⟩ } : State).Inv
      ∧ step { tagged with pend := some ⟨6, 0, 5⟩ }
        = .next (after { tagged with pend := some ⟨6, 0, 5⟩ }) := ⟨by decide, rfl⟩

theorem witness_OnlyInitLeavesIdle :
    step (pending 0x1801 keyed) = .next (after (pending 0x1801 keyed))
      ∧ (pending 0x1801 keyed).absPhase = .idle ∧ (after (pending 0x1801 keyed)).absPhase ≠ .idle :=
  ⟨rfl, rfl, by decide⟩

/-- V changed by reset; a finished tag left by INIT, and by a CLEAR that wipes V. -/
theorem witness_OnlyAbsorptionChangesV :
    (step (sched running [.reset]) = .next (after (sched running [.reset]))
        ∧ (after (sched running [.reset])).regV ≠ running.regV)
      ∧ (tagged.absPhase = .tagrdy
        ∧ step (pending 0x801 { tagged with keyReady := true })
          = .next (after (pending 0x801 { tagged with keyReady := true }))
        ∧ (after (pending 0x801 { tagged with keyReady := true })).absPhase ≠ .tagrdy)
      ∧ (step (sched tagged [cmdWriteEvent 7]) = .next (after (sched tagged [cmdWriteEvent 7]))
        ∧ (after (sched tagged [cmdWriteEvent 7])).tagView ≠ tagged.tagView) :=
  ⟨⟨rfl, by decide⟩, ⟨rfl, rfl, by decide⟩, rfl, by decide⟩

theorem witness_OnlyKeystreamChangesS :
    step (pending 0x2003 tagged) = .next (after (pending 0x2003 tagged))
      ∧ (after (pending 0x2003 tagged)).regS ≠ (pending 0x2003 tagged).regS := ⟨rfl, by decide⟩

/-- DOUT wiped by a failing VERIFY; DIN and TAGIN written at the last byte of their windows. -/
theorem witness_OnlyTheseChangeDataRegisters :
    (step (pending 6 { tagged with dout := 9 }) = .next (after (pending 6 { tagged with dout := 9 }))
        ∧ (after (pending 6 { tagged with dout := 9 })).dout ≠ 9)
      ∧ (step (sched keyed [.write (.block 0x2F) 4 9])
          = .next (after (sched keyed [.write (.block 0x2F) 4 9]))
        ∧ (after (sched keyed [.write (.block 0x2F) 4 9])).din ≠ keyed.din)
      ∧ (step (sched keyed [.write (.block 0x5F) 4 9])
          = .next (after (sched keyed [.write (.block 0x5F) 4 9]))
        ∧ (after (sched keyed [.write (.block 0x5F) 4 9])).tagin ≠ keyed.tagin) :=
  ⟨⟨rfl, by decide⟩, ⟨rfl, by decide⟩, rfl, by decide⟩

/-- Both phases end together; a seed starts the keystream; reset returns both. -/
theorem witness_PhasesMoveAsListed :
    (step (pending 0x305 running) = .next (after (pending 0x305 running))
        ∧ (after (pending 0x305 running)).absPhase ≠ running.absPhase
        ∧ (after (pending 0x305 running)).ksPhase ≠ running.ksPhase)
      ∧ (step (sched running [.reset]) = .next (after (sched running [.reset]))
        ∧ (after (sched running [.reset])).absPhase ≠ running.absPhase
        ∧ (after (sched running [.reset])).ksPhase ≠ running.ksPhase) :=
  ⟨⟨rfl, by decide, by decide⟩, rfl, by decide, by decide⟩

theorem witness_ResetSetsEveryRegister :
    (sched broken [.reset, .engine]).schedule = .reset :: [.engine] := rfl

/-- A drop between operations, a rise while a command is pending, a drop while one is pending, drops in each
phase of an operation, states with none in progress, a new key, and a step that keeps the key. -/
theorem witness_KeyChangesAdmitted :
    ((sched keyed [.keyReady false]).schedule = .keyReady false :: [] ∧ keyed.pend = none
        ∧ keyed.inOperation = false)
      ∧ (sched (pending 1 State.reset) [.keyReady true]).schedule = .keyReady true :: []
      ∧ ((sched broken [.keyReady false]).schedule = .keyReady false :: [] ∧ broken.keyReady = true
        ∧ broken.pend ≠ none)
      ∧ (running.keyReady = true ∧ running.pend = none ∧ running.errf = false
        ∧ running.absPhase = .pt
        ∧ ({ running with absPhase := .ad } : State).absPhase = .ad
        ∧ ({ running with absPhase := .tagrdy } : State).ksPhase = .krun
        ∧ ({ tagged with ptp := true } : State).ptp = true)
      ∧ (broken.errf = true ∧ keyed.absPhase = .idle
        ∧ (tagged.absPhase = .tagrdy ∧ tagged.ptp = false ∧ tagged.ksPhase ≠ .krun))
      ∧ (sched broken [.keyChange]).schedule = .keyChange :: []
      ∧ running.keyHeld ∧ running.absPhase = .pt := by decide

theorem witness_KeyChangesAdmitted_step :
    step (sched running [.write (.block 0x20) 4 9])
      = .next (after (sched running [.write (.block 0x20) 4 9]))
      ∧ (sched running [.write (.block 0x20) 4 9]).keyHeld := ⟨rfl, by decide⟩

end Sys2Proof.Tests
end

section
/-! The integer of a block, 00_scope.md R10: it is the sum of the block's bytes, each at its place. -/

namespace Sys2Proof.Machine

/-- The number of a byte of a block is a base-256 digit of the block's number. -/
theorem blockByte_toNat (b : Block) (i : Nat) :
    (blockByte b i).toNat = b.toNat / 2 ^ (8 * (15 - i)) % 2 ^ 8 := by
  rw [blockByte, BitVec.extractLsb'_toNat, Nat.shiftRight_eq_div_pow]

/-- The `k` lowest base-256 digits of a number, weighted by their places, make up its remainder. -/
theorem sum_base256_digits (n k : Nat) :
    ∑ i ∈ Finset.range k, n / 2 ^ (8 * i) % 2 ^ 8 * 2 ^ (8 * i) = n % 2 ^ (8 * k) := by
  induction k with
  | zero => simp [Nat.mod_one]
  | succ k ih =>
    rw [Finset.sum_range_succ, ih, Nat.pow_mul, Nat.pow_mul, Nat.mod_pow_succ (b := 2 ^ 8), Nat.mul_comm]

/-- R10's sum. The block's bytes are the digits of its number from the most significant down, so the
sum over the bytes is the sum over the digits in reverse. -/
theorem toNat_eq_sum_blockByte (b : Block) :
    b.toNat = ∑ i ∈ Finset.range 16, (blockByte b i).toNat * 2 ^ (8 * (15 - i)) := by
  calc b.toNat = b.toNat % 2 ^ (8 * 16) := (Nat.mod_eq_of_lt b.isLt).symm
    _ = ∑ i ∈ Finset.range 16, b.toNat / 2 ^ (8 * i) % 2 ^ 8 * 2 ^ (8 * i) :=
        (sum_base256_digits b.toNat 16).symm
    _ = ∑ i ∈ Finset.range 16, b.toNat / 2 ^ (8 * (15 - i)) % 2 ^ 8 * 2 ^ (8 * (15 - i)) :=
        (Finset.sum_range_reflect (fun i => b.toNat / 2 ^ (8 * i) % 2 ^ 8 * 2 ^ (8 * i)) 16).symm
    _ = ∑ i ∈ Finset.range 16, (blockByte b i).toNat * 2 ^ (8 * (15 - i)) := by
        simp only [blockByte_toNat]

/-- Settles O37: the sum by base-256 digits, the bit positions by the law of a block's byte, and the
two directions of `blk` by the round trip of bit vectors and numbers below `2 ^ 128`. -/
theorem blockIntegerIsBigEndian : Obligations.BlockIntegerIsBigEndian :=
  ⟨toNat_eq_sum_blockByte,
    fun b i j _ hj => blockByte_getLsbD b i j hj,
    fun b => (BitVec.ofNat_toNat 128 b).trans (BitVec.setWidth_eq b),
    fun n hn => (BitVec.toNat_ofNat n 128).trans (Nat.mod_eq_of_lt hn)⟩

end Sys2Proof.Machine
end

section
/-! The fields of STATUS, 10_state.md R35. The model builds the word by placing nine fields and joining
them, so one law says what each bit of it is, and each field is read off that law. -/

namespace Sys2Proof.Machine

/-- A flag placed at bit `k` is that bit of the word, and every other bit is 0. -/
theorem flagWord_shiftLeft_getLsbD (b : Bool) (k i : Nat) (hi : i < 32) :
    (flagWord b <<< k).getLsbD i = (decide (i = k) && b) := by
  rw [flagWord, BitVec.getLsbD_shiftLeft, BitVec.getLsbD_setWidth, BitVec.getLsbD_ofBool]
  rcases Nat.lt_trichotomy i k with h | h | h
  · simp [h, Nat.ne_of_lt h]
  · simp [h ▸ hi, h]
  · simp [show i - k ≠ 0 by omega, Nat.ne_of_gt h]

/-- A two-bit code placed at bit `k` has its bits from there on, and every bit below is 0. -/
theorem code_shiftLeft_getLsbD (c : BitVec 2) (k i : Nat) (hi : i < 32) :
    (c.setWidth 32 <<< k).getLsbD i = (decide (k ≤ i) && c.getLsbD (i - k)) := by
  rw [BitVec.getLsbD_shiftLeft, BitVec.getLsbD_setWidth]
  by_cases h : i < k
  · simp [h, Nat.not_le.mpr h]
  · simp [h, hi, Nat.not_lt.mp h, show i - k < 32 by omega]

/-- R35: what each bit of STATUS is. Stated with `[i]`, the form in which `simp` writes a bit. -/
theorem status_getElem (s : State) (i : Nat) (hi : i < 32) :
    s.status[i] =
      (decide (i = 0) && s.busy || decide (i = 1) && s.errf || decide (i = 2) && s.tagValid
        || decide (3 ≤ i) && s.auth.code.getLsbD (i - 3)
        || decide (5 ≤ i) && s.absPhase.code.getLsbD (i - 5)
        || decide (7 ≤ i) && s.ksPhase.code.getLsbD (i - 7)
        || decide (i = 9) && s.adp || decide (i = 10) && s.ptp || decide (i = 11) && s.keyReady) := by
  have hbusy : (flagWord s.busy).getLsbD i = (decide (i = 0) && s.busy) := by
    simpa using flagWord_shiftLeft_getLsbD s.busy 0 i hi
  simp only [← BitVec.getLsbD_eq_getElem, State.status, BitVec.getLsbD_or, hbusy,
    flagWord_shiftLeft_getLsbD _ _ i hi, code_shiftLeft_getLsbD _ _ i hi]

/-- A two-bit field of a word is fixed by its two bits. -/
theorem extractLsb'_two_eq (w : Word) (k : Nat) (c : BitVec 2) (h0 : w.getLsbD k = c.getLsbD 0)
    (h1 : w.getLsbD (k + 1) = c.getLsbD 1) : w.extractLsb' k 2 = c := by
  apply BitVec.eq_of_getLsbD_eq
  intro i hi
  rw [BitVec.getLsbD_extractLsb', decide_eq_true hi, Bool.true_and]
  match i, hi with
  | 0, _ => exact h0
  | 1, _ => exact h1

/-- R30: BUSY shows a filled slot. -/
theorem State.busy_iff (s : State) : s.busy = true ↔ s.pend ≠ none :=
  Option.isSome_iff_ne_none

/-- R35: TAG_VALID shows the phase TAGRDY. -/
theorem State.tagValid_iff (s : State) : s.tagValid = true ↔ s.absPhase = .tagrdy :=
  decide_eq_true_iff

theorem status_tagValid (s : State) : s.status.getLsbD 2 = s.tagValid := by
  simp [status_getElem]

theorem status_adp (s : State) : s.status.getLsbD 9 = s.adp := by
  simp [status_getElem]

theorem status_ptp (s : State) : s.status.getLsbD 10 = s.ptp := by
  simp [status_getElem]

theorem status_keyReady (s : State) : s.status.getLsbD 11 = s.keyReady := by
  simp [status_getElem]

theorem status_auth (s : State) : s.status.extractLsb' 3 2 = s.auth.code :=
  extractLsb'_two_eq _ _ _ (by simp [status_getElem]) (by simp [status_getElem])

theorem status_absPhase (s : State) : s.status.extractLsb' 5 2 = s.absPhase.code :=
  extractLsb'_two_eq _ _ _ (by simp [status_getElem]) (by simp [status_getElem])

theorem status_ksPhase (s : State) : s.status.extractLsb' 7 2 = s.ksPhase.code :=
  extractLsb'_two_eq _ _ _ (by simp [status_getElem]) (by simp [status_getElem])

/-- R35: every bit above KEY_READY reads 0, since no field reaches so far up. -/
theorem status_reserved (s : State) : s.status.extractLsb' 12 20 = 0 := by
  apply BitVec.eq_of_getLsbD_eq
  intro i hi
  rw [BitVec.getLsbD_extractLsb', BitVec.getLsbD_eq_getElem (by omega), status_getElem]
  have code_above : ∀ (c : BitVec 2) (k : Nat), k ≤ 10 → c.getLsbD (12 + i - k) = false :=
    fun c k hk => BitVec.getLsbD_of_ge c _ (by omega)
  simp [code_above, show ∀ k, k ≤ 11 → 12 + i ≠ k by omega]

/-- R52: the offsets of the word at 0x08 reach STATUS, whatever their two low bits (R51). -/
theorem registerAt_status (off : BitVec 8) (h : off &&& 0xFC = 0x08) : registerAt off = .status := by
  rw [← registerAt_aligned, h]
  rfl

/-- R35: a read of STATUS gives its word. -/
theorem busRead_status (off : BitVec 8) (s : State) (h : registerAt off = .status) :
    busRead off s = s.status := by
  simp only [busRead, h]

/-- R35: a write to STATUS is ignored. -/
theorem busWrite_status (off : BitVec 8) (v : Word) (s : State) (h : registerAt off = .status) :
    busWrite off v s = .next s := by
  simp only [busWrite, h]

/-- The step of a host's word write to the window is the bus write. -/
theorem step_write_block (s : State) (off : BitVec 8) (v : Word) (rest : List Event)
    (h : s.schedule = .write (.block off) 4 v :: rest) : step s = busWrite off v s.advance := by
  rw [step_of_schedule s _ rest h, perform, if_pos rfl]

/-- Settles O34: each field by its own law of the STATUS word, the read by the register map, and the
write by the bus write of an offset that reaches STATUS. -/
theorem statusFields : Obligations.StatusFields := by
  refine ⟨fun s => ⟨busRead_status 0x08 s (registerAt_status 0x08 rfl), ?busy, status_err s, ?tagValid,
    status_auth s, status_absPhase s, status_ksPhase s, status_adp s, status_ptp s, status_keyReady s,
    status_reserved s⟩, ?write⟩
  case busy => rw [status_busy, State.busy_iff]
  case tagValid => rw [status_tagValid, State.tagValid_iff]
  case write =>
    intro s off v rest hoff hs
    rw [step_write_block s off v rest hs, busWrite_status off v _ (registerAt_status off hoff)]

end Sys2Proof.Machine
end

section
/-! The register window as the host sees it, 20_memory.md R51, R54 and R55: which register a word of the
window reaches, which words read 0, which ones ignore a write, and accesses of other widths. -/

namespace Sys2Proof.Machine

/-- R51: a host write depends on its offset only through the register it reaches. -/
theorem busWrite_aligned (off : BitVec 8) (v : Word) (s : State) :
    busWrite (off &&& 0xFC) v s = busWrite off v s := by
  simp only [busWrite, registerAt_aligned]

/-- R51: a host read depends on its offset only through the register it reaches. -/
theorem busRead_aligned (off : BitVec 8) (s : State) : busRead (off &&& 0xFC) s = busRead off s := by
  simp only [busRead, registerAt_aligned]

theorem perform_word_write (off : BitVec 8) (v : Word) (s : State) :
    perform (.write (.block off) 4 v) s = busWrite off v s := by
  rw [perform, if_pos rfl]

/-- R51: no word read stops, inside the window or outside it. -/
theorem perform_word_read_next (tgt : Target) (s : State) : ∃ t, perform (.read tgt 4) s = .next t := by
  cases tgt with
  | elsewhere => exact ⟨s, rfl⟩
  | block off => exact ⟨s.respond off (busRead off s), by rw [perform, if_pos rfl]⟩

/-- R51: no word write stops, inside the window or outside it. -/
theorem perform_word_write_next (tgt : Target) (v : Word) (s : State) :
    ∃ t, perform (.write tgt 4 v) s = .next t := by
  cases tgt with
  | elsewhere => exact ⟨s, rfl⟩
  | block off => rw [perform_word_write]; exact busWrite_next off v s

/-- Settles O29: an access is what the register it reaches makes of it, and aligning the offset keeps
that register; a word access to any target answers a next state. -/
theorem misalignedReachesWord : Obligations.MisalignedReachesWord := by
  refine ⟨fun s off v => ⟨?write, (busRead_aligned off s).symm⟩, fun s a v rest hs => ?next⟩
  case write => rw [perform_word_write, perform_word_write, busWrite_aligned]
  case next =>
    rcases hs with hs | hs
    · rw [step_of_schedule s _ rest hs]
      exact perform_word_read_next _ _
    · rw [step_of_schedule s _ rest hs]
      exact perform_word_write_next _ _ _

/-- R51: an aligned offset is four times the index of its word. -/
theorem toNat_aligned (off : BitVec 8) : (off &&& 0xFC).toNat = 4 * wordIndex off := by
  revert off
  decide

/-- R52: the words of DOUT. -/
theorem registerAt_dout (off : BitVec 8) (k : Nat) (hk : k < 4) (h : wordIndex off = 12 + k) :
    registerAt off = .dout k := by
  interval_cases k <;> simp [registerAt, h]

/-- R52: the words of TAG. -/
theorem registerAt_tag (off : BitVec 8) (k : Nat) (hk : k < 4) (h : wordIndex off = 16 + k) :
    registerAt off = .tag k := by
  interval_cases k <;> simp [registerAt, h]

/-- R52: the reserved words, two below the block registers and all above TAGIN. -/
theorem registerAt_reserved (off : BitVec 8)
    (h : wordIndex off = 6 ∨ wordIndex off = 7 ∨ 24 ≤ wordIndex off) : registerAt off = .reserved := by
  unfold registerAt
  split
  case h_23 => rfl
  all_goals omega

/-- R54: what a host write does not change: the read-only registers and the reserved offsets. -/
def Register.ignoresWrites : Register → Bool
  | .id | .status | .err | .dout _ | .tag _ | .reserved => true
  | .cmd | .irqEn | .irqPend | .din _ | .tagin _ => false

theorem busWrite_ignored (off : BitVec 8) (v : Word) (s : State)
    (h : (registerAt off).ignoresWrites = true) : busWrite off v s = .next s := by
  unfold busWrite
  cases hr : registerAt off with
  | cmd | irqEn | irqPend | din k | tagin k => simp [hr, Register.ignoresWrites] at h
  | id | status | err | dout k | tag k | reserved => rfl

/-- R52, R54: the words that ignore a write: in the list ID, STATUS, ERR and the two low reserved
words, then DOUT and TAG, then the reserved words above TAGIN. -/
theorem registerAt_ignoresWrites (off : BitVec 8)
    (h : wordIndex off ∈ [0, 2, 3, 6, 7] ∨ (12 ≤ wordIndex off ∧ wordIndex off < 20)
      ∨ 24 ≤ wordIndex off) : (registerAt off).ignoresWrites = true := by
  rcases h with h | ⟨hlow, hhigh⟩ | h
  · simp only [List.mem_cons, List.not_mem_nil, or_false] at h
    rcases h with h | h | h | h | h <;> simp [registerAt, h, Register.ignoresWrites]
  · rcases Nat.lt_or_ge (wordIndex off) 16 with hd | ht
    · rw [registerAt_dout off (wordIndex off - 12) (by omega) (by omega)]
      rfl
    · rw [registerAt_tag off (wordIndex off - 16) (by omega) (by omega)]
      rfl
  · rw [registerAt_reserved off (.inr (.inr h))]
    rfl

/-- R54: CMD and the reserved offsets read 0. -/
theorem busRead_zero (off : BitVec 8) (s : State)
    (h : wordIndex off = 1 ∨ wordIndex off = 6 ∨ wordIndex off = 7 ∨ 24 ≤ wordIndex off) :
    busRead off s = 0 := by
  rcases h with hcmd | hreserved
  · simp [busRead, registerAt, hcmd]
  · simp [busRead, registerAt_reserved off hreserved]

/-- A value read in a wider word shows 0 above its own width. -/
theorem extractLsb'_setWidth_above {n : Nat} (x : BitVec n) (m k : Nat) :
    (x.setWidth m).extractLsb' n k = 0 := by
  apply BitVec.eq_of_getLsbD_eq
  intro i _
  simp [BitVec.getLsbD_setWidth]

/-- Settles O30: the offsets of the statement are put as word indexes, for which the laws above say what
a read returns and that a write is ignored; the reserved bits lie above the widths of the fields. -/
theorem reservedReadsZeroWritesIgnored : Obligations.ReservedReadsZeroWritesIgnored := by
  refine ⟨fun s off => ⟨fun h => ?zero, ?status, extractLsb'_setWidth_above s.cause.code 32 28,
    extractLsb'_setWidth_above s.irqEn 32 29, extractLsb'_setWidth_above s.irqPend 32 29⟩,
    fun s off v rest hs h => ?ignored⟩
  case zero =>
    simp only [BitVec.toNat_eq, toNat_aligned] at h
    simp only [BitVec.ofNat_eq_ofNat, BitVec.toNat_ofNat] at h
    exact busRead_zero off s (by omega)
  case status => rw [busRead_status 0x08 s (registerAt_status 0x08 rfl), status_reserved]
  case ignored =>
    rw [step_write_block s off v rest hs]
    simp only [toNat_aligned, List.mem_cons, List.not_mem_nil, or_false] at h
    refine busWrite_ignored off v _ (registerAt_ignoresWrites off ?_)
    simp only [List.mem_cons, List.not_mem_nil, or_false]
    omega

theorem perform_read_other_width (off : BitVec 8) (n : Nat) (s : State) (hn : n ≠ 4) :
    perform (.read (.block off) n) s = .refused (.accessWidth n) := by
  rw [perform, if_neg hn]

theorem perform_write_other_width (off : BitVec 8) (n : Nat) (v : Word) (s : State) (hn : n ≠ 4) :
    perform (.write (.block off) n v) s = .refused (.accessWidth n) := by
  rw [perform, if_neg hn]

/-- Settles O31: the next step is the access at the head of the schedule, which is refused. -/
theorem otherWidthsRefused : Obligations.OtherWidthsRefused := by
  intro s off n v rest hn hs
  rcases hs with hs | hs
  · rw [step_of_schedule s _ rest hs, perform_read_other_width off n _ hn]
  · rw [step_of_schedule s _ rest hs, perform_write_other_width off n v _ hn]

end Sys2Proof.Machine
end

section
/-! Noninterference of DIN and TAGIN with a pending command, 20_memory.md R61: a command reads its
snapshot and writes neither register, so replacing the registers commutes with executing it. -/

namespace Sys2Proof.Machine

/-- The state with other values in the two registers that only the host writes. -/
def State.withInputs (s : State) (x y : Block) : State := { s with din := x, tagin := y }

theorem State.withInputs_snapDin (s : State) (q : Pending) (x y : Block) (hp : s.pend = some q) :
    (s.withInputs x y).snapDin = s.snapDin := by
  rw [s.snapDin_of_pend q hp, (s.withInputs x y).snapDin_of_pend q hp]

theorem State.withInputs_snapTagin (s : State) (q : Pending) (x y : Block) (hp : s.pend = some q) :
    (s.withInputs x y).snapTagin = s.snapTagin := by
  rw [s.snapTagin_of_pend q hp, (s.withInputs x y).snapTagin_of_pend q hp]

/-- The checks of a command read neither register; a rejection and a completion write neither. -/
theorem runCommand_withInputs (lenOk seqOk needsKey : Bool) (effect : State → State) (s : State)
    (x y : Block) (he : effect (s.withInputs x y) = (effect s).withInputs x y) :
    runCommand lenOk seqOk needsKey effect (s.withInputs x y)
      = mapNext (·.withInputs x y) (runCommand lenOk seqOk needsKey effect s) := by
  have hkey : (s.withInputs x y).keyReady = s.keyReady := rfl
  unfold runCommand
  rw [he, hkey]
  split_ifs <;> rfl

/-- R61: executing a command commutes with replacing DIN and TAGIN, whose snapshot it reads. -/
theorem exec_withInputs (i : Instr) (s : State) (q : Pending) (x y : Block) (hp : s.pend = some q)
    (hi : i ≠ .clear) :
    exec i (s.withInputs x y) = mapNext (·.withInputs x y) (exec i s) := by
  have hdin := s.withInputs_snapDin q x y hp
  have htagin := s.withInputs_snapTagin q x y hp
  have hks : ∀ fin len,
      keystreamStep fin len (s.withInputs x y) = (keystreamStep fin len s).withInputs x y := by
    intro fin len
    rw [keystreamStep, hdin]
    rfl
  cases i with
  | init adp ptp =>
    rw [exec_init, exec_init]
    exact runCommand_withInputs _ _ _ _ s x y rfl
  | abs seg fin len =>
    rw [exec_abs, exec_abs]
    refine runCommand_withInputs _ _ _ _ s x y ?_
    rw [absEffect, hdin]
    rfl
  | kseed src =>
    rw [exec_kseed, exec_kseed]
    refine runCommand_withInputs _ _ _ _ s x y ?_
    cases src with
    | tag => rfl
    | tagin =>
      rw [kseedEffect, State.seed, htagin]
      rfl
  | ks fin len =>
    rw [exec_ks, exec_ks]
    exact runCommand_withInputs _ _ _ _ s x y (hks fin len)
  | ksabs fin len =>
    rw [exec_ksabs, exec_ksabs]
    refine runCommand_withInputs _ _ _ _ s x y ?_
    rw [ksabsEffect, hks]
    rfl
  | verify =>
    rw [exec_verify, exec_verify]
    refine runCommand_withInputs _ _ _ _ s x y ?_
    unfold verifyEffect
    rw [htagin, show (s.withInputs x y).regV = s.regV from rfl]
    split_ifs <;> rfl
  | clear => exact absurd rfl hi

/-- Settles O42: the command ends in some next state, and by the commutation the changed registers
lead to that state with the same change. -/
theorem commandsUseTheirSnapshot : Obligations.CommandsUseTheirSnapshot := by
  intro s i q x y hp hi
  obtain ⟨t, ht⟩ := exec_next i s
  refine ⟨t, ht, ?_⟩
  have hcomm := exec_withInputs i s q x y hp hi
  rw [ht] at hcomm
  exact hcomm

end Sys2Proof.Machine
end

section
/-! The decoder as the mask table, 30_encoding.md R82 and R85: a word decodes to a command exactly when
that command's row selects it, and its operands are the fields of the word. -/

namespace Sys2Proof

open Sys2Proof.Laws.EncodeSelects (rowOf)

/-- R81, R83: the command with its operands read from the fields of the word. -/
def Instr.withFields (w : Word) : Instr → Instr
  | .init _ _ => .init (fieldAdp w) (fieldPtp w)
  | .abs _ _ _ => .abs (fieldSeg w) (fieldFin w) (fieldLen w)
  | .kseed _ => .kseed (fieldSrc w)
  | .ks _ _ => .ks (fieldFin w) (fieldLen w)
  | .ksabs _ _ => .ksabs (fieldFin w) (fieldLen w)
  | .verify => .verify
  | .clear => .clear

theorem accept_eq_ok_iff (r : OpRow) (w : Word) (i j : Instr) :
    r.accept w j = .ok i ↔ w &&& r.mask = r.op ∧ i = j := by
  have hsel : r.selectedBy w = true ↔ w &&& r.mask = r.op := beq_iff_eq
  rw [← hsel, OpRow.accept]
  split_ifs with h <;> simp [h, eq_comm]

theorem rowOf_mem_opTable (i : Instr) : rowOf i ∈ opTable := by
  cases i <;> simp [rowOf, opTable]

/-- R82: in every row the mask keeps the four opcode bits, and the opcode has no other bit. -/
theorem opTable_opcodeBits :
    ∀ r ∈ opTable, fieldOp r.mask = BitVec.allOnes 4 ∧ r.op &&& 0xFFFFFFF0 = 0 := by
  decide

/-- Every mask keeps the opcode, so a word that a row selects has the row's opcode. -/
theorem fieldOp_of_masked (w : Word) (r : OpRow) (hr : r ∈ opTable) (h : w &&& r.mask = r.op) :
    fieldOp w = fieldOp r.op := by
  obtain ⟨hmask, -⟩ := opTable_opcodeBits r hr
  calc fieldOp w = fieldOp w &&& fieldOp r.mask := by rw [hmask, BitVec.and_allOnes]
    _ = fieldOp (w &&& r.mask) := BitVec.extractLsb'_and.symm
    _ = fieldOp r.op := by rw [h]

/-- A word that a row selects has only zeros outside the row's fields. -/
theorem strayBits_of_masked (w : Word) (r : OpRow) (hr : r ∈ opTable) (h : w &&& r.mask = r.op) :
    w &&& (r.mask &&& 0xFFFFFFF0) = 0 := by
  obtain ⟨-, hop⟩ := opTable_opcodeBits r hr
  rw [← BitVec.and_assoc, h, hop]

/-- R85: a row does not select a word that has another opcode, or a nonzero bit outside the row's
fields. -/
theorem not_masked_of_strayBits (w : Word) (r : OpRow) (hr : r ∈ opTable)
    (h : fieldOp w = fieldOp r.op → w &&& (r.mask &&& 0xFFFFFFF0) ≠ 0) : w &&& r.mask ≠ r.op :=
  fun hmask => h (fieldOp_of_masked w r hr hmask) (strayBits_of_masked w r hr hmask)

/-- R82: the mask table is the decoder. The opcode of a selected word leads `decode` to the row that
selects it; and each arm of `decode` accepts through its own row only. -/
theorem decode_eq_ok_iff (w : Word) (i : Instr) :
    decode w = .ok i ↔ w &&& (rowOf i).mask = (rowOf i).op ∧ i = i.withFields w := by
  constructor
  · intro h
    unfold decode at h
    split at h
    case h_8 => cases h
    all_goals
      obtain ⟨hmask, rfl⟩ := (accept_eq_ok_iff _ _ _ _).mp h
      exact ⟨hmask, rfl⟩
  · rintro ⟨hmask, hfields⟩
    rw [decode, fieldOp_of_masked w _ (rowOf_mem_opTable i) hmask, hfields]
    cases i <;> exact (accept_eq_ok_iff _ _ _ _).mpr ⟨hmask, rfl⟩

theorem decode_eq_init_iff (w : Word) (a p : Bool) :
    decode w = .ok (.init a p) ↔
      w &&& 0xFFFFE7FF = 0x1 ∧ a = w.getLsbD 11 ∧ p = w.getLsbD 12 := by
  rw [decode_eq_ok_iff, Instr.withFields, Instr.init.injEq]
  rfl

theorem decode_eq_abs_iff (w : Word) (g : Segment) (f : Bool) (r : Nat) :
    decode w = .ok (.abs g f r) ↔
      w &&& 0xFFFFF80F = 0x2 ∧ r = (w.extractLsb' 4 5).toNat ∧ f = w.getLsbD 9
        ∧ g = if w.getLsbD 10 then .pt else .ad := by
  rw [decode_eq_ok_iff, Instr.withFields, Instr.abs.injEq, and_comm (a := g = _),
    and_comm (a := f = _), and_assoc]
  rfl

theorem decode_eq_kseed_iff (w : Word) (c : SeedSource) :
    decode w = .ok (.kseed c) ↔
      w &&& 0xFFFFDFFF = 0x3 ∧ c = if w.getLsbD 13 then .tagin else .tag := by
  rw [decode_eq_ok_iff, Instr.withFields, Instr.kseed.injEq]
  rfl

theorem decode_eq_ks_iff (w : Word) (f : Bool) (r : Nat) :
    decode w = .ok (.ks f r) ↔
      w &&& 0xFFFFFC0F = 0x4 ∧ r = (w.extractLsb' 4 5).toNat ∧ f = w.getLsbD 9 := by
  rw [decode_eq_ok_iff, Instr.withFields, Instr.ks.injEq, and_comm (a := f = _)]
  rfl

theorem decode_eq_ksabs_iff (w : Word) (f : Bool) (r : Nat) :
    decode w = .ok (.ksabs f r) ↔
      w &&& 0xFFFFFC0F = 0x5 ∧ r = (w.extractLsb' 4 5).toNat ∧ f = w.getLsbD 9 := by
  rw [decode_eq_ok_iff, Instr.withFields, Instr.ksabs.injEq, and_comm (a := f = _)]
  rfl

theorem decode_eq_verify_iff (w : Word) : decode w = .ok .verify ↔ w &&& 0xFFFFFFFF = 0x6 :=
  (decode_eq_ok_iff w .verify).trans (and_iff_left rfl)

theorem decode_eq_clear_iff (w : Word) : decode w = .ok .clear ↔ w &&& 0xFFFFFFFF = 0x7 :=
  (decode_eq_ok_iff w .clear).trans (and_iff_left rfl)

end Sys2Proof
end

section
/-! The rejection with ILLEGAL, 60_exceptions.md R187: a pending word that no row of INIT to VERIFY selects
leaves the slot in the engine step and changes nothing but the error's own fields. -/

namespace Sys2Proof.Machine

/-- R158, R190: the state after a rejection outside the error state. -/
theorem State.rejectCmd_eq (s : State) (c : Cause) (hf : s.errf = false) :
    s.rejectCmd c = { s with
      pend := none, errf := true, cause := c, irqPend := s.irqPend ||| 2 } := by
  simp [State.rejectCmd, State.recordError, State.discard, hf, irqErr]

/-- R187: the engine step rejects with ILLEGAL a pending word that decodes to none of INIT to VERIFY. -/
theorem step_illegal (s : State) (q : Pending) (he : s.engineNext = true) (hp : s.pend = some q)
    (hf : s.errf = false) (hd : ∀ i, decode q.word = .ok i → i = .clear) :
    step s = .next { s.advance with
      pend := none, errf := true, cause := .illegal, irqPend := s.irqPend ||| 2 } := by
  have hp' : s.advance.pend = some q := hp
  have hf' : s.advance.errf = false := hf
  have hreject : engineStep s.advance = .next (s.advance.rejectCmd .illegal) := by
    cases hw : decode q.word with
    | error e => simp [engineStep, hp', hf', hw]
    | ok i =>
      cases hd i hw
      simp [engineStep, hp', hf', hw]
  rw [step_of_engineNext s he, hreject, s.advance.rejectCmd_eq .illegal hf']
  rfl

/-- Settles O4: each command's clause is its row of the table and its fields; a word that fails the six
masks can decode to CLEAR only. -/
theorem masksSelectCommands : Obligations.MasksSelectCommands := by
  refine ⟨decode_eq_init_iff, decode_eq_abs_iff, decode_eq_kseed_iff, decode_eq_ks_iff,
    decode_eq_ksabs_iff, decode_eq_verify_iff, decode_eq_clear_iff, ?illegal⟩
  case illegal =>
    intro s q he hp hf hinit habs hkseed hks hksabs hverify
    refine step_illegal s q he hp hf fun i hd => ?_
    cases i with
    | init => exact absurd ((decode_eq_init_iff ..).mp hd).1 hinit
    | abs => exact absurd ((decode_eq_abs_iff ..).mp hd).1 habs
    | kseed => exact absurd ((decode_eq_kseed_iff ..).mp hd).1 hkseed
    | ks => exact absurd ((decode_eq_ks_iff ..).mp hd).1 hks
    | ksabs => exact absurd ((decode_eq_ksabs_iff ..).mp hd).1 hksabs
    | verify => exact absurd ((decode_eq_verify_iff ..).mp hd) hverify
    | clear => rfl

/-- Settles O5: by O4 it is enough that no row of INIT to VERIFY selects the word. With the opcode of such
a row, the only kind of reserved word left is the one with a nonzero bit outside that row's fields. -/
theorem reservedWordsAreIllegal : Obligations.ReservedWordsAreIllegal := by
  intro s q he hp hf hreserved
  have unselected : ∀ r ∈ [rowInit, rowAbs, rowKseed, rowKs, rowKsabs, rowVerify],
      q.word &&& r.mask ≠ r.op := by
    intro r hr
    refine not_masked_of_strayBits q.word r (List.mem_of_mem_dropLast hr) fun hop => ?_
    rw [show q.word.extractLsb' 0 4 = fieldOp r.op from hop] at hreserved
    simp only [List.mem_cons, List.not_mem_nil, or_false] at hr
    rcases hr with rfl | rfl | rfl | rfl | rfl | rfl
    all_goals
      simpa [rowInit, rowAbs, rowKseed, rowKs, rowKsabs, rowVerify, fieldOp] using hreserved
  simp only [List.forall_mem_cons] at unselected
  obtain ⟨hinit, habs, hkseed, hks, hksabs, hverify, -⟩ := unselected
  obtain ⟨-, -, -, -, -, -, -, hillegal⟩ := masksSelectCommands
  exact hillegal s q he hp hf hinit habs hkseed hks hksabs hverify

end Sys2Proof.Machine
end

section
/-! The length check, 30_encoding.md R84: it is the first check of ABS, KS and KSABS, and none of their
effects records an error. -/

namespace Sys2Proof.Machine

/-- R84: the legal lengths. -/
theorem lenLegal_iff (fin : Bool) (len : Nat) :
    lenLegal fin len = true ↔ 1 ≤ len ∧ len ≤ 16 ∧ (fin = true ∨ len = 16) := by
  simp [lenLegal, and_assoc]

/-- R187: the length check comes first: it decides alone. -/
theorem runCommand_badLen (seqOk needsKey : Bool) (effect : State → State) (s : State) :
    runCommand false seqOk needsKey effect s = .next (s.rejectCmd .badLen) := rfl

/-- R187: with a legal length a command ends with another cause than BAD_LEN, or completes with the
cause of its effect. -/
theorem runCommand_cause_ne_badLen (seqOk needsKey : Bool) (effect : State → State) (s t : State)
    (hf : s.errf = false) (he : (effect s).cause ≠ .badLen)
    (h : runCommand true seqOk needsKey effect s = .next t) : t.cause ≠ .badLen := by
  rcases runCommand_cases _ _ _ _ _ _ h with
    ⟨hlen, -⟩ | ⟨-, -, rfl⟩ | ⟨-, -, -, -, rfl⟩ | ⟨-, -, -, rfl⟩
  · cases hlen
  · simp [hf]
  · simp [hf]
  · simpa using he

/-- R84, R187: ABS, KS and KSABS make the length check with their own length and FIN, and their
effects leave CAUSE alone. -/
theorem exec_eq_runCommand_lenLegal (seg : Segment) (fin : Bool) (r : Nat) (s : State) (i : Instr)
    (hi : i = .abs seg fin r ∨ i = .ks fin r ∨ i = .ksabs fin r) :
    ∃ seqOk effect, exec i s = runCommand (lenLegal fin r) seqOk true effect s
      ∧ (effect s).cause = s.cause := by
  rcases hi with rfl | rfl | rfl
  · exact ⟨_, _, exec_abs seg fin r s, rfl⟩
  · exact ⟨_, _, exec_ks fin r s, rfl⟩
  · exact ⟨_, _, exec_ksabs fin r s, rfl⟩

/-- Settles O20: the three commands are one `runCommand` with the length check of R84, which rejects an
illegal length and lets no other command end in BAD_LEN. -/
theorem illegalLengthIsBadLen : Obligations.IllegalLengthIsBadLen := by
  intro seg fin r s i hi hf hc
  obtain ⟨seqOk, effect, hexec, hcause⟩ := exec_eq_runCommand_lenLegal seg fin r s i hi
  rw [← lenLegal_iff, hexec]
  refine ⟨fun hillegal => ?rejected, fun hlegal => ?otherCause⟩
  case rejected =>
    rw [Bool.not_eq_true] at hillegal
    rw [hillegal, runCommand_badLen, s.rejectCmd_eq .badLen hf]
  case otherCause =>
    rw [hlegal]
    obtain ⟨t, ht⟩ := runCommand_next true seqOk true effect s
    exact ⟨t, ht, runCommand_cause_ne_badLen _ _ _ _ _ hf (by simp [hcause, hc]) ht⟩

end Sys2Proof.Machine
end

section
/-! The block functions of the absorption engine, byte by byte, 40_absorb.md R100 to R103. -/

namespace Sys2Proof.Machine

/-- R100: the bytes of `pad(b, R)`. -/
theorem blockByte_padBlock (b : Block) (r i : Nat) (hi : i < 16) :
    blockByte (padBlock b r) i = if i < r then blockByte b i else if i = r then 0x80 else 0 :=
  blockByte_blockOfFn _ i hi

/-- R100: a full block is not padded. -/
theorem padBlock_full (b : Block) : padBlock b 16 = b :=
  block_ext_bytes _ _ fun i hi => by rw [blockByte_padBlock b 16 i hi, if_pos hi]

/-- Settles O38: the bytes of a padded block, of which only those below R are read from the block. -/
theorem paddingBytes : Obligations.PaddingBytes :=
  ⟨fun b r i _ _ hi => blockByte_padBlock b r i hi,
    fun b b' r _ _ h => padBlock_congr b b' r fun i hr _ => h i hr,
    padBlock_full⟩

/-- R102: doubling is the shift, reduced by `0x87` when the bit shifted out was 1. -/
theorem dblBlock_eq (x : Block) : dblBlock x = x <<< 1 ^^^ if x.msb then 0x87 else 0 := by
  unfold dblBlock
  split_ifs
  · rfl
  · exact BitVec.xor_zero.symm

/-- R102: the shift moves each byte one bit up and takes in bit 7 of the next byte. -/
theorem blockByte_shiftLeft_one (x : Block) (i : Nat) (hi : i < 15) :
    blockByte (x <<< 1) i = blockByte x i <<< 1 ||| blockByte x (i + 1) >>> 7 := by
  apply BitVec.eq_of_getLsbD_eq
  intro j hj
  rw [blockByte_getLsbD _ _ _ hj, BitVec.getLsbD_or, BitVec.getLsbD_shiftLeft,
    BitVec.getLsbD_shiftLeft, BitVec.getLsbD_ushiftRight]
  cases j with
  | zero =>
    rw [blockByte_getLsbD _ _ _ (by omega : 7 + 0 < 8),
      show 8 * (15 - i) + 0 - 1 = 8 * (15 - (i + 1)) + (7 + 0) by omega]
    simp [show 8 * (15 - i) < 128 by omega, show ¬15 - i = 0 by omega]
  | succ j =>
    rw [blockByte_getLsbD _ _ _ (by omega : j + 1 - 1 < 8),
      BitVec.getLsbD_of_ge (blockByte x (i + 1)) _ (by omega : 8 ≤ 7 + (j + 1))]
    simp [← Nat.add_assoc, hj, show 8 * (15 - i) + j + 1 < 128 by omega]

/-- R102: the last byte takes in a 0. -/
theorem blockByte_shiftLeft_one_last (x : Block) :
    blockByte (x <<< 1) 15 = blockByte x 15 <<< 1 := by
  apply BitVec.eq_of_getLsbD_eq
  intro j hj
  rw [blockByte_getLsbD _ _ _ hj, BitVec.getLsbD_shiftLeft, BitVec.getLsbD_shiftLeft,
    blockByte_getLsbD _ _ _ (by omega : j - 1 < 8)]
  simp [hj, show j < 128 by omega]

/-- R102: the reduction constant lies in the last byte. -/
theorem blockByte_reduction (c : Bool) (i : Nat) (hi : i < 15) :
    blockByte (if c then 0x87 else 0) i = 0 := by
  revert c i
  decide

theorem blockByte_reduction_last (c : Bool) :
    blockByte (if c then 0x87 else 0) 15 = if c then 0x87 else 0 := by
  cases c <;> decide

/-- R10: the top bit of a block is bit 7 of its byte 0. -/
theorem msb_eq_blockByte_zero (x : Block) : x.msb = (blockByte x 0).getLsbD 7 := by
  rw [blockByte_getLsbD x 0 7 (by omega), BitVec.msb_eq_getLsbD_last]

/-- R102: doubling on the integer of the block. -/
theorem dblBlock_toNat (x : Block) :
    (dblBlock x).toNat =
      if 2 ^ 127 ≤ x.toNat then (2 * x.toNat % 2 ^ 128) ^^^ 0x87 else 2 * x.toNat % 2 ^ 128 := by
  have hmsb : x.msb = true ↔ 2 ^ 127 ≤ x.toNat := by
    rw [BitVec.msb_eq_decide, decide_eq_true_eq]
  have hshift : (x <<< 1).toNat = 2 * x.toNat % 2 ^ 128 := by
    rw [BitVec.toNat_shiftLeft, Nat.shiftLeft_eq, Nat.mul_comm]
  simp only [dblBlock, hmsb]
  split_ifs
  · rw [BitVec.toNat_xor, hshift]
    rfl
  · exact hshift

/-- Settles O39: the integer by the shift's remainder; the bytes by those of the shift and of the
reduction, which touches the last byte only. -/
theorem doublingIsTimesX : Obligations.DoublingIsTimesX := by
  intro x
  refine ⟨dblBlock_toNat x, fun i hi => ?upper, ?last⟩
  case upper =>
    rw [dblBlock_eq, blockByte_xor, blockByte_reduction _ i hi, blockByte_shiftLeft_one x i hi]
    exact BitVec.xor_zero
  case last =>
    rw [dblBlock_eq, blockByte_xor, blockByte_reduction_last, blockByte_shiftLeft_one_last,
      msb_eq_blockByte_zero]

/-- R103: byte 0 of the domain-separation block holds the two flags. -/
theorem blockByte_dsbBlock_zero (adp ptp : Bool) :
    blockByte (dsbBlock adp ptp) 0 = (if adp then 0x80 else 0) ||| (if ptp then 0x40 else 0) := by
  rw [dsbBlock, blockByte_blockOfFn _ 0 (by omega)]
  cases adp <;> cases ptp <;> rfl

/-- R103: the other bytes of the domain-separation block are zero. -/
theorem blockByte_dsbBlock_of_pos (adp ptp : Bool) (i : Nat) (h1 : 1 ≤ i) (h15 : i ≤ 15) :
    blockByte (dsbBlock adp ptp) i = 0 := by
  rw [dsbBlock, blockByte_blockOfFn _ i (by omega), if_neg (by omega)]

/-- R103: the flags are read back from byte 0, so the four blocks are distinct. -/
theorem dsbBlock_injective (a p a' p' : Bool) (h : dsbBlock a p = dsbBlock a' p') :
    a = a' ∧ p = p' := by
  have hbyte := congrArg (blockByte · 0) h
  simp only [blockByte_dsbBlock_zero] at hbyte
  clear h
  revert a p a' p'
  decide

/-- Settles O40: the flags in byte 0, zeros elsewhere, and the flags read back. -/
theorem dsbBytesAndDistinct : Obligations.DsbBytesAndDistinct :=
  ⟨fun adp ptp => ⟨blockByte_dsbBlock_zero adp ptp, blockByte_dsbBlock_of_pos adp ptp⟩,
    dsbBlock_injective⟩

/-- R106: with both flags clear the domain-separation block is the all-zero block. -/
theorem dsbBlock_false_false : dsbBlock false false = 0 := by
  decide

end Sys2Proof.Machine
end

section
/-! The bytes of DIN at and above R, 40_absorb.md R101: a command of legal length computes the same from
two snapshots that agree below R, and its end empties the slot. -/

namespace Sys2Proof.Machine

/-- The state with another command, or none, in the slot. -/
def State.withPend (s : State) (p : Option Pending) : State := { s with pend := p }

/-- R187: what a command's effect leaves outside the slot, for a command that passes its length check,
is all that is seen of the slot's contents. -/
theorem runCommand_withPend (lenOk seqOk needsKey : Bool) (effect : State → State) (s : State)
    (p : Option Pending)
    (he : lenOk = true → (effect (s.withPend p)).completeCmd = (effect s).completeCmd) :
    runCommand lenOk seqOk needsKey effect (s.withPend p)
      = runCommand lenOk seqOk needsKey effect s := by
  have hkey : (s.withPend p).keyReady = s.keyReady := rfl
  cases lenOk with
  | false => rfl
  | true =>
    unfold runCommand
    rw [he rfl, hkey]
    split_ifs <;> rfl

/-- R101, R111: a step of legal length absorbs only the first R bytes. -/
theorem absorbBlock_congr (E : Block → Block) (fin : Bool) (r : Nat) (b b' v : Block)
    (hl : lenLegal fin r = true) (h : ∀ k, k < r → k < 16 → blockByte b k = blockByte b' k) :
    absorbBlock E fin r b v = absorbBlock E fin r b' v := by
  cases fin with
  | true => rw [absorbBlock, absorbBlock, if_pos rfl, if_pos rfl, padBlock_congr b b' r h]
  | false =>
    obtain ⟨-, -, hr⟩ := (lenLegal_iff false r).mp hl
    have hr16 : r = 16 := by simpa using hr
    rw [block_ext_bytes b b' fun k hk => h k (by omega) hk]

/-- R101, R133: truncation keeps only the first R bytes. -/
theorem truncBlock_congr (b b' : Block) (r : Nat)
    (h : ∀ k, k < r → k < 16 → blockByte b k = blockByte b' k) :
    truncBlock b r = truncBlock b' r := by
  refine blockOfFn_congr _ _ fun k hk => ?_
  split_ifs with hr
  · exact h k hr hk
  · rfl

/-- R101, R133: the keystream step reads only the first R bytes of the snapshot. -/
theorem keystreamStep_withPend (fin : Bool) (r : Nat) (s : State) (q q' : Pending)
    (hp : s.pend = some q) (h : ∀ k, k < r → k < 16 → blockByte q'.din k = blockByte q.din k) :
    keystreamStep fin r (s.withPend (some q')) = (keystreamStep fin r s).withPend (some q') := by
  have hdout : truncBlock (q'.din ^^^ Config.E s.regS) r = truncBlock (q.din ^^^ Config.E s.regS) r :=
    truncBlock_congr _ _ r fun k hr hk => by rw [blockByte_xor, blockByte_xor, h k hr hk]
  rw [keystreamStep, keystreamStep, s.snapDin_of_pend q hp, ← hdout]
  rfl

/-- Settles O41: the effect of each of the three commands, at a legal length, differs at most in the slot,
which its completion empties. -/
theorem bytesBeyondLengthIgnored : Obligations.BytesBeyondLengthIgnored := by
  intro seg fin r s q d i hi hp h
  have hks := keystreamStep_withPend fin r s q { q with din := d } hp h
  rcases hi with rfl | rfl | rfl
  · refine runCommand_withPend _ _ _ _ s _ fun hl => ?_
    have hv := absorbBlock_congr Config.E fin r d q.din s.regV hl h
    rw [absEffect, absEffect, s.snapDin_of_pend q hp, ← hv]
    rfl
  · refine runCommand_withPend _ _ _ _ s _ fun _ => ?_
    rw [hks]
    rfl
  · refine runCommand_withPend _ _ _ _ s _ fun _ => ?_
    rw [ksabsEffect, hks]
    rfl

end Sys2Proof.Machine
end

section
/-! The round trip from a command to its word and back, 30_encoding.md R81 and R87, and with it `do M` for a
command that completes, 30_encoding.md R88. -/

namespace Sys2Proof

open Sys2Proof.Laws.EncodeSelects (rowOf)

/-- R81, R87: the fields of a command's word are the command's operands, a length being one of the 32 that
LEN holds. -/
theorem withFields_encode (i : Instr) (h : i.wellFormed = true) : i.withFields (encode i) = i := by
  have hlen : ∀ len, lenEncodable len = true → len < 32 := fun _ => of_decide_eq_true
  cases i with
  | init adp ptp => cases adp <;> cases ptp <;> rfl
  | abs seg fin len =>
    have := hlen len h
    cases seg <;> cases fin <;> interval_cases len <;> rfl
  | kseed src => cases src <;> rfl
  | ks fin len =>
    have := hlen len h
    cases fin <;> interval_cases len <;> rfl
  | ksabs fin len =>
    have := hlen len h
    cases fin <;> interval_cases len <;> rfl
  | verify => rfl
  | clear => rfl

/-- R82: the word of a command is selected by the command's row. -/
theorem encode_masked (i : Instr) (h : i.wellFormed = true) :
    encode i &&& (rowOf i).mask = (rowOf i).op := by
  have hsel : Laws.EncodeSelects.Statement i := by
    cases i with
    | init adp ptp => exact Laws.EncodeSelects.init adp ptp
    | abs seg fin len => exact Laws.EncodeSelects.abs seg fin len
    | kseed src => exact Laws.EncodeSelects.kseed src
    | ks fin len => exact Laws.EncodeSelects.ks fin len
    | ksabs fin len => exact Laws.EncodeSelects.ksabs fin len
    | verify => exact Laws.EncodeSelects.verify
    | clear => exact Laws.EncodeSelects.clear
  exact eq_of_beq (hsel h)

/-- The word of a command decodes to the command. -/
theorem decode_encode (i : Instr) (h : i.wellFormed = true) : decode (encode i) = .ok i :=
  (decode_eq_ok_iff _ i).mpr ⟨encode_masked i h, (withFields_encode i h).symm⟩

namespace Machine

/-- R85: the CLEAR word is the word of no other command. -/
theorem encode_ne_clearWord (i : Instr) (h : i.wellFormed = true) (hi : i ≠ .clear) :
    encode i ≠ clearWord := by
  intro hw
  have hd : decode clearWord = .ok i := hw ▸ decode_encode i h
  have hc : decode clearWord = .ok .clear := rfl
  rw [hc] at hd
  exact hi (Except.ok.inj hd).symm

/-- R84: a legal length has an encoding. -/
theorem lenEncodable_of_lenLegal (fin : Bool) (len : Nat) (h : lenLegal fin len = true) :
    lenEncodable len = true := by
  obtain ⟨-, hle, -⟩ := (lenLegal_iff fin len).mp h
  exact decide_eq_true (by omega)

/-- R187: a command that passes its checks completes. -/
theorem runCommand_complete (lenOk seqOk needsKey : Bool) (effect : State → State) (s : State)
    (hl : lenOk = true) (hs : seqOk = true) (hk : needsKey = true → s.keyReady = true) :
    runCommand lenOk seqOk needsKey effect s = .next (effect s).completeCmd := by
  subst hl hs
  cases needsKey with
  | false => rfl
  | true => simp [runCommand, hk rfl]

/-- R88, `do M`, for a command that completes: the program goes on. -/
theorem ends_doCmd_complete {α : Type} (onError : Option α) (i : Instr) (rest : HostProg α)
    (s t : State) (post : State → α → Prop) (hp : s.pend = none) (he : s.errf = false)
    (hw : i.wellFormed = true) (hi : i ≠ .clear)
    (hx : exec i (s.acceptCmd (encode i)) = .next t.completeCmd) (ht : t.errf = false)
    (h : ∀ rs, rest.Ends (t.completeCmd.addResponses rs) post) :
    (doCmd onError i rest).Ends s post := by
  refine ends_doCmd onError i rest s t.completeCmd post hp he (decode_encode i hw) hi
    (encode_ne_clearWord i hw hi) hx rfl fun rs => ?_
  rw [show t.completeCmd.errf = false from ht, stopIf_false]
  exact h rs

end Machine

end Sys2Proof
end

section
/-! The absorb sequences, 40_absorb.md R112: each block of `absorb SEG` is one step of the golden loop of
R104, and INIT with the present segments is the MAC of R105; for two empty segments it is the encrypted
all-zero block of R106. -/

namespace Sys2Proof.Machine

/-- The block takes a command that calls the cipher: the slot is empty, there is no error, and there is a
key. -/
structure State.Ready (s : State) : Prop where
  pend : s.pend = none
  errf : s.errf = false
  keyReady : s.keyReady = true

/-- The state after commands of the absorption engine that completed: V and ABS_PHASE as computed, the slot
empty, DIN, the pending interrupt bits and the host's record of reads as they have become, the rest
kept. -/
def State.absorbed (s : State) (v : Block) (phase : AbsPhase) (din : Block) (irqPend : BitVec 3)
    (responses : List Response) : State :=
  { s with
    regV := v
    absPhase := phase
    pend := none
    din := din
    irqPend := irqPend
    responses := responses }

theorem State.Ready.absorbed {s : State} (h : s.Ready) (v : Block) (phase : AbsPhase) (din : Block)
    (irqPend : BitVec 3) (responses : List Response) :
    (s.absorbed v phase din irqPend responses).Ready :=
  ⟨rfl, h.errf, h.keyReady⟩

/-- Nothing absorbed. -/
theorem State.absorbed_self (s : State) (hp : s.pend = none) :
    s.absorbed s.regV s.absPhase s.din s.irqPend s.responses = s := by
  rw [State.absorbed, ← hp]

/-- From every state that an absorption can leave with V = `v` and ABS_PHASE = `phase`, the program ends as
wanted. -/
def EndsAbsorbed {α : Type} (rest : HostProg α) (s : State) (v : Block) (phase : AbsPhase)
    (post : State → α → Prop) : Prop :=
  ∀ din irqPend responses, rest.Ends (s.absorbed v phase din irqPend responses) post

/-- R27, R111: ABS_PHASE after a block of a segment. -/
def phaseAfterBlock (fin : Bool) (phase : AbsPhase) (ptp : Bool) : AbsPhase :=
  if fin then phaseAfterFinal phase ptp else phase

/-- R88, R111: `ldblk DIN` and `do ABS` absorb one block of the current segment. -/
theorem ends_absorbBlocks_cons {α : Type} (onError : Option α) (seg : Segment) (c : Chunk)
    (cs : List Chunk) (rest : HostProg α) (s : State) (post : State → α → Prop) (hs : s.Ready)
    (hph : s.absPhase = segPhase seg) (hl : lenLegal c.fin c.len = true)
    (h : EndsAbsorbed (absorbBlocks onError seg cs rest) s
      (absorbBlock Config.E c.fin c.len c.data s.regV) (phaseAfterBlock c.fin s.absPhase s.ptp)
      post) :
    (absorbBlocks onError seg (c :: cs) rest).Ends s post := by
  refine ends_ldblk_din c.data _ s post hs.pend ?_
  refine ends_doCmd_complete onError (.abs seg c.fin c.len) _ { s with din := c.data } _ post
    hs.pend hs.errf (lenEncodable_of_lenLegal c.fin c.len hl) nofun
    (runCommand_complete _ _ _ _ _ hl (decide_eq_true hph) fun _ => hs.keyReady) hs.errf fun rs => ?_
  exact h c.data (s.irqPend ||| irqDone) (s.responses ++ rs)

/-- R88, R101: the padding bytes the host chose are not read. -/
theorem padBlock_paddedBlock (fill : Block) (bytes : List Byte) :
    padBlock (paddedBlock fill bytes) bytes.length = padBlock (blockOfBytes bytes) bytes.length := by
  refine padBlock_congr _ _ _ fun i hi h16 => ?_
  rw [paddedBlock, blockByte_blockOfFn _ i h16, blockByte_blockOfBytes bytes i h16,
    List.getD_eq_getElem _ _ hi, List.getD_eq_getElem _ _ hi]

/-- R104, R112: the blocks of a segment, `n` full ones and the final one, go through the golden loop. -/
theorem ends_absorbBlocks_chunksLoop {α : Type} (onError : Option α) (seg : Segment) (fill : Block)
    (n : Nat) (bytes : List Byte) (rest : HostProg α) (s : State) (post : State → α → Prop)
    (hlo : 16 * n < bytes.length) (hhi : bytes.length ≤ 16 * n + 16) (hs : s.Ready)
    (hph : s.absPhase = segPhase seg)
    (h : EndsAbsorbed rest s (absorbLoop Config.E n bytes s.regV) (phaseAfterFinal s.absPhase s.ptp)
      post) :
    (absorbBlocks onError seg (chunksLoop fill n bytes) rest).Ends s post := by
  induction n generalizing bytes s with
  | zero =>
    have hl : lenLegal true bytes.length = true :=
      (lenLegal_iff true bytes.length).mpr ⟨by omega, by omega, .inl rfl⟩
    refine ends_absorbBlocks_cons onError seg _ [] rest s post hs hph hl ?_
    rw [absorbLoop, ← padBlock_paddedBlock fill] at h
    exact h
  | succ n ih =>
    refine ends_absorbBlocks_cons onError seg _ _ rest s post hs hph rfl fun d irq rs => ?_
    have hlen : (bytes.drop 16).length = bytes.length - 16 := List.length_drop
    exact ih (bytes.drop 16) _ (by omega) (by omega) (hs.absorbed ..) hph h

/-- R112: `absorb SEG` computes Absorb. -/
theorem ends_absorbSeq {α : Type} (onError : Option α) (seg : Segment) (fill : Block)
    (bytes : List Byte) (rest : HostProg α) (s : State) (post : State → α → Prop)
    (hb : bytes ≠ []) (hs : s.Ready) (hph : s.absPhase = segPhase seg)
    (h : EndsAbsorbed rest s (absorb Config.E bytes s.regV) (phaseAfterFinal s.absPhase s.ptp)
      post) :
    (absorbSeq onError seg fill bytes rest).Ends s post := by
  have hpos : 0 < bytes.length := List.length_pos_iff.mpr hb
  exact ends_absorbBlocks_chunksLoop onError seg fill (fullBlocks bytes.length) bytes rest s post
    (by unfold fullBlocks; omega) (by unfold fullBlocks; omega) hs hph h

theorem present_iff (bytes : List Byte) : present bytes = true ↔ bytes ≠ [] := by
  simp [present]

/-- R105: an absent segment is skipped by the host and by the MAC alike. -/
theorem ends_absorbIfPresent {α : Type} (onError : Option α) (seg : Segment) (fill : Block)
    (bytes : List Byte) (rest : HostProg α) (s : State) (post : State → α → Prop) (hs : s.Ready)
    (hph : present bytes = true → s.absPhase = segPhase seg)
    (h : EndsAbsorbed rest s (absorbPresent Config.E bytes s.regV)
      (phaseAfterBlock (present bytes) s.absPhase s.ptp) post) :
    (absorbIfPresent onError seg fill bytes rest).Ends s post := by
  rw [absorbPresent] at h
  rw [absorbIfPresent]
  cases hb : present bytes with
  | true =>
    rw [hb] at h
    exact ends_absorbSeq onError seg fill bytes rest s post ((present_iff bytes).mp hb) hs (hph hb) h
  | false =>
    rw [hb] at h
    rw [← s.absorbed_self hs.pend]
    exact h _ _ _

/-- R110: the state after INIT: the flags latched, and the absorption begun. -/
def State.initialised (s : State) (adp ptp : Bool) : State :=
  { s with adp := adp, ptp := ptp, auth := .none }

/-- R88, R110: `do INIT`. -/
theorem ends_doCmd_init {α : Type} (onError : Option α) (adp ptp : Bool) (rest : HostProg α)
    (s : State) (post : State → α → Prop) (hs : s.Ready)
    (h : EndsAbsorbed rest (s.initialised adp ptp) (Config.E (dsbBlock adp ptp))
      (phaseAfterInit adp ptp) post) :
    (doCmd onError (.init adp ptp) rest).Ends s post := by
  refine ends_doCmd_complete onError (.init adp ptp) rest s _ post hs.pend hs.errf rfl nofun
    (runCommand_complete _ _ _ _ _ rfl rfl fun _ => hs.keyReady) hs.errf fun rs => ?_
  exact h s.din (s.irqPend ||| irqDone) (s.responses ++ rs)

/-- R27: ABS_PHASE once the associated data, if any, is absorbed. -/
theorem phaseAfterBlock_ad (adp ptp : Bool) :
    phaseAfterBlock adp (phaseAfterInit adp ptp) ptp = if ptp then .pt else .tagrdy := by
  cases adp <;> cases ptp <;> rfl

/-- R27: ABS_PHASE once the plaintext, if any, is absorbed too. -/
theorem phaseAfterBlock_pt (ptp : Bool) :
    phaseAfterBlock ptp (if ptp then .pt else .tagrdy) ptp = .tagrdy := by
  cases ptp <;> rfl

/-- R105, R112: INIT and the absorb sequences of the present segments compute the MAC. -/
theorem ends_macSeq {α : Type} (onError : Option α) (f : Fills) (ad pt : List Byte)
    (rest : HostProg α) (s : State) (post : State → α → Prop) (hs : s.Ready)
    (h : EndsAbsorbed rest (s.initialised (present ad) (present pt)) (mac Config.E ad pt) .tagrdy
      post) :
    (doCmd onError (.init (present ad) (present pt)) <|
      absorbIfPresent onError .ad f.ad ad <|
      absorbIfPresent onError .pt f.pt pt rest).Ends s post := by
  have hready : (s.initialised (present ad) (present pt)).Ready := ⟨hs.pend, hs.errf, hs.keyReady⟩
  refine ends_doCmd_init onError _ _ _ s post hs fun d irq rs => ?_
  refine ends_absorbIfPresent onError .ad f.ad ad _ _ post (hready.absorbed ..)
    (fun hb => ?adPhase) fun d irq rs => ?_
  case adPhase => exact if_pos hb
  refine ends_absorbIfPresent onError .pt f.pt pt rest _ post
    ((hready.absorbed ..).absorbed ..) (fun hb => ?ptPhase) ?_
  case ptPhase => exact (phaseAfterBlock_ad (present ad) (present pt)).trans (if_pos hb)
  have hphase : phaseAfterBlock (present pt)
      (phaseAfterBlock (present ad) (phaseAfterInit (present ad) (present pt)) (present pt))
      (present pt) = .tagrdy := by
    rw [phaseAfterBlock_ad, phaseAfterBlock_pt]
  rw [← hphase] at h
  exact h

/-- R27, R111: from a segment's own phase. -/
theorem phaseAfterFinal_segPhase (seg : Segment) (ptp : Bool) :
    phaseAfterFinal (segPhase seg) ptp = if seg = .ad ∧ ptp = true then .pt else .tagrdy := by
  cases seg <;> cases ptp <;> rfl

theorem segPhase_eq (seg : Segment) : segPhase seg = if seg = .pt then .pt else .ad := by
  cases seg <;> rfl

/-- Settles O45: the sequences end in a state that the absorption leaves, with the golden function's value in V;
and such a state keeps everything else that the statement lists. -/
theorem absorbSequencesComputeMac : Obligations.AbsorbSequencesComputeMac := by
  constructor
  · intro onError seg fill bytes s hb hp he hk hph
    rw [← segPhase_eq] at hph
    refine ends_absorbSeq onError seg fill bytes _ s _ hb ⟨hp, he, hk⟩ hph fun d irq rs => ?_
    refine ends_ret true _ _ rfl ⟨rfl, rfl, ?_, rfl, he, hk, rfl, rfl, rfl, rfl, rfl, rfl, rfl⟩
    rw [← phaseAfterFinal_segPhase, ← hph]
    rfl
  · intro onError f ad pt s hp he hk
    refine ends_macSeq onError f ad pt _ s _ ⟨hp, he, hk⟩ fun d irq rs => ?_
    exact ends_ret true _ _ rfl ⟨rfl, rfl, rfl, rfl, he, hk, rfl, rfl, rfl, rfl, rfl, rfl⟩

/-- Settles O44: with both flags clear the domain-separation block is the all-zero block, and INIT with both
flags clear leaves its encryption as the finished tag. -/
theorem emptyTagIsEncryptedZero : Obligations.EmptyTagIsEncryptedZero := by
  constructor
  · intro E
    have hmac : mac E [] [] = E (dsbBlock false false) := rfl
    exact ⟨hmac, by rw [hmac, dsbBlock_false_false]⟩
  · intro s hk
    refine ⟨_, runCommand_complete _ _ _ _ _ rfl rfl fun _ => hk, rfl, ?_⟩
    rw [← dsbBlock_false_false]
    rfl

end Sys2Proof.Machine
end

section
/-! The stream sequences, 41_keystream.md R135: each block of `stream KS` or `stream KSABS` is one step of the
golden loop of R130, and with KSABS its output is also one step of the golden loop of R104. -/

namespace Sys2Proof.Machine

/-- R130: the output has the length of the bytes it transforms. -/
theorem length_xorBytes (bytes : List Byte) (k : Block) (h : bytes.length ≤ 16) :
    (xorBytes bytes k).length = bytes.length := by
  simp [xorBytes, h]

theorem getElem_xorBytes (bytes : List Byte) (k : Block) (i : Nat)
    (h : i < (xorBytes bytes k).length) (hb : i < bytes.length) (hi : i < 16) :
    (xorBytes bytes k)[i] = bytes[i] ^^^ blockByte k i := by
  simp only [xorBytes, List.getElem_zipWith, getElem_bytesOfBlock k i hi]

theorem take_bytesOfBlock_blockOfBytes (bytes : List Byte) (h : bytes.length ≤ 16) :
    (bytesOfBlock (blockOfBytes bytes)).take bytes.length = bytes := by
  refine List.ext_getElem (by simpa using h) fun i _ hi => ?_
  rw [List.getElem_take, getElem_bytesOfBlock _ i (by omega), blockByte_blockOfBytes bytes i (by omega),
    List.getD_eq_getElem _ _ hi]

/-- R88: the block the host supplies begins with the bytes it is for, and R is their number. -/
structure Chunk.Holds (c : Chunk) (bytes : List Byte) : Prop where
  len : c.len = bytes.length
  le : bytes.length ≤ 16
  data : ∀ i (hi : i < bytes.length), blockByte c.data i = bytes[i]

/-- R88: a full block. -/
theorem holds_blockOfBytes (bytes : List Byte) (h : bytes.length = 16) :
    Chunk.Holds { data := blockOfBytes bytes, fin := false, len := 16 } bytes :=
  ⟨h.symm, h.le, fun i hi => by
    rw [blockByte_blockOfBytes bytes i (by omega), List.getD_eq_getElem _ _ hi]⟩

/-- R88: the final block, padded with any values. -/
theorem holds_paddedBlock (fill : Block) (bytes : List Byte) (h : bytes.length ≤ 16) :
    Chunk.Holds { data := paddedBlock fill bytes, fin := true, len := bytes.length } bytes :=
  ⟨rfl, h, fun i hi => by
    rw [paddedBlock, blockByte_blockOfFn _ i (by omega), List.getD_eq_getElem _ _ hi]⟩

/-- R133: DOUT holds the transformed bytes, whatever the host padded the block with. -/
theorem truncBlock_xor_of_holds (c : Chunk) (bytes : List Byte) (k : Block) (h : c.Holds bytes) :
    truncBlock (c.data ^^^ k) c.len = blockOfBytes (xorBytes bytes k) := by
  refine block_ext_bytes _ _ fun i hi => ?_
  have hlen := length_xorBytes bytes k h.le
  rw [blockByte_truncBlock _ _ i hi, blockByte_blockOfBytes _ i hi, h.len]
  split_ifs with hr
  · rw [List.getD_eq_getElem _ _ (by omega), getElem_xorBytes bytes k i _ hr hi, blockByte_xor,
      h.data i hr]
  · rw [List.getD_eq_default _ _ (by omega)]

/-- The commands a `stream` is made of: KSABS where the output is absorbed as well, else KS. -/
def streamCmd (absorbs : Bool) : Bool → Nat → Instr :=
  if absorbs then .ksabs else .ks

/-- R133, R134: the effect of the command. -/
def streamEffect (absorbs : Bool) : Bool → Nat → State → State :=
  if absorbs then ksabsEffect else keystreamStep

/-- R133, R134: in its phases a stream command of legal length completes. -/
theorem exec_streamCmd (absorbs fin : Bool) (len : Nat) (s : State) (hl : lenLegal fin len = true)
    (hks : s.ksPhase = .krun) (hph : absorbs = true → s.absPhase = .pt) (hk : s.keyReady = true) :
    exec (streamCmd absorbs fin len) s = .next (streamEffect absorbs fin len s).completeCmd := by
  cases absorbs with
  | false => exact runCommand_complete _ _ _ _ s hl (decide_eq_true hks) fun _ => hk
  | true =>
    have hlegal : s.ksabsLegal = true := by simp [State.ksabsLegal, hks, hph rfl]
    exact runCommand_complete _ _ _ _ s hl hlegal fun _ => hk

theorem streamCmd_wellFormed (absorbs fin : Bool) (len : Nat) (hl : lenLegal fin len = true) :
    (streamCmd absorbs fin len).wellFormed = true := by
  cases absorbs <;> exact lenEncodable_of_lenLegal fin len hl

theorem streamCmd_ne_clear (absorbs fin : Bool) (len : Nat) : streamCmd absorbs fin len ≠ .clear := by
  cases absorbs <;> exact nofun

/-- The state with another keystream side: S, KS_PHASE and DOUT. -/
def State.withKeystream (s : State) (k : Block) (phase : KsPhase) (out : Block) : State :=
  { s with regS := k, ksPhase := phase, dout := out }

/-- From every state that keystream commands can leave with S = `k`, KS_PHASE = `ks`, V = `v` and
ABS_PHASE = `phase`, the program ends as wanted. -/
def EndsStreamed {α : Type} (rest : HostProg α) (s : State) (k : Block) (ks : KsPhase) (v : Block)
    (phase : AbsPhase) (post : State → α → Prop) : Prop :=
  ∀ out, EndsAbsorbed rest (s.withKeystream k ks out) v phase post

/-- R88, R133, R134: `ldblk DIN`, `do KS` or `do KSABS`, and `rdblk DOUT` transform one block of the buffer. -/
theorem ends_streamBlocks_cons {α : Type} (onError : Option α) (absorbs : Bool) (c : Chunk)
    (cs : List Chunk) (bytes kept : List Byte) (rest : List Byte → HostProg α) (s : State)
    (post : State → α → Prop) (hs : s.Ready) (hks : s.ksPhase = .krun)
    (hph : absorbs = true → s.absPhase = .pt) (hc : c.Holds bytes) (hl : lenLegal c.fin c.len = true)
    (h : EndsStreamed
      (streamBlocks onError (streamCmd absorbs) cs (kept ++ xorBytes bytes (Config.E s.regS)) rest)
      s (Config.E s.regS) (if c.fin then .kdone else s.ksPhase)
      (if absorbs then
        absorbBlock Config.E c.fin c.len (blockOfBytes (xorBytes bytes (Config.E s.regS))) s.regV
      else s.regV)
      (if absorbs && c.fin then .tagrdy else s.absPhase) post) :
    (streamBlocks onError (streamCmd absorbs) (c :: cs) kept rest).Ends s post := by
  refine ends_ldblk_din c.data _ s post hs.pend ?_
  refine ends_doCmd_complete onError (streamCmd absorbs c.fin c.len) _ { s with din := c.data } _ post
    hs.pend hs.errf (streamCmd_wellFormed absorbs c.fin c.len hl) (streamCmd_ne_clear absorbs c.fin c.len)
    (exec_streamCmd absorbs c.fin c.len _ hl hks hph hs.keyReady) ?errf fun rs => ?_
  case errf => cases absorbs <;> exact hs.errf
  refine ends_rdblk_dout _ _ post rfl fun rs' => ?_
  have hdout := truncBlock_xor_of_holds c bytes (Config.E s.regS) hc
  have hkept : (bytesOfBlock (truncBlock (c.data ^^^ Config.E s.regS) c.len)).take c.len
      = xorBytes bytes (Config.E s.regS) := by
    rw [hdout, hc.len, ← length_xorBytes bytes (Config.E s.regS) hc.le,
      take_bytesOfBlock_blockOfBytes _ ((length_xorBytes _ _ hc.le).trans_le hc.le)]
  rw [← hdout, ← hkept] at h
  cases absorbs <;> exact h _ c.data (s.irqPend ||| irqDone) (s.responses ++ rs ++ rs')

/-- R130: OFB keeps the length. -/
theorem length_ofbLoop (E : Block → Block) (n : Nat) (buf : List Byte) (k : Block)
    (hlo : 16 * n < buf.length) (hhi : buf.length ≤ 16 * n + 16) :
    (ofbLoop E n buf k).1.length = buf.length := by
  induction n generalizing buf k with
  | zero => exact length_xorBytes buf (E k) (by omega)
  | succ n ih =>
    have htake : (buf.take 16).length = 16 := List.length_take_of_le (by omega)
    have hdrop : (buf.drop 16).length = buf.length - 16 := List.length_drop
    rw [ofbLoop, List.length_append, length_xorBytes _ _ htake.le, ih _ _ (by omega) (by omega)]
    omega

/-- R104: the golden loop ends with the final step. -/
theorem absorbLoop_zero (E : Block → Block) (seg : List Byte) (v : Block) :
    absorbLoop E 0 seg v = absorbBlock E true seg.length (blockOfBytes seg) v := rfl

/-- R104: the golden loop takes a full block off the front of a segment. -/
theorem absorbLoop_append (E : Block → Block) (n : Nat) (block rest : List Byte) (v : Block)
    (h : block.length = 16) :
    absorbLoop E (n + 1) (block ++ rest) v = absorbLoop E n rest (E (v ^^^ blockOfBytes block)) := by
  rw [absorbLoop, List.drop_left' h, List.take_left' h]

/-- R130, R135: the blocks of a buffer, `n` full ones and the final one, go through the golden loop of OFB, and
with KSABS its output through that of Absorb. -/
theorem ends_streamBlocks_chunksLoop {α : Type} (onError : Option α) (absorbs : Bool) (fill : Block)
    (n : Nat) (buf kept : List Byte) (rest : List Byte → HostProg α) (s : State)
    (post : State → α → Prop) (hlo : 16 * n < buf.length) (hhi : buf.length ≤ 16 * n + 16)
    (hs : s.Ready) (hks : s.ksPhase = .krun) (hph : absorbs = true → s.absPhase = .pt)
    (h : EndsStreamed (rest (kept ++ (ofbLoop Config.E n buf s.regS).1)) s
      (ofbLoop Config.E n buf s.regS).2 .kdone
      (if absorbs then absorbLoop Config.E n (ofbLoop Config.E n buf s.regS).1 s.regV else s.regV)
      (if absorbs then .tagrdy else s.absPhase) post) :
    (streamBlocks onError (streamCmd absorbs) (chunksLoop fill n buf) kept rest).Ends s post := by
  induction n generalizing buf kept s with
  | zero =>
    have hl : lenLegal true buf.length = true :=
      (lenLegal_iff true buf.length).mpr ⟨by omega, by omega, .inl rfl⟩
    refine ends_streamBlocks_cons onError absorbs _ [] buf kept rest s post hs hks hph
      (holds_paddedBlock fill buf (by omega)) hl ?_
    rw [ofbLoop, absorbLoop_zero, length_xorBytes buf _ (by omega)] at h
    cases absorbs <;> exact h
  | succ n ih =>
    have htake : (buf.take 16).length = 16 := List.length_take_of_le (by omega)
    have hdrop : (buf.drop 16).length = buf.length - 16 := List.length_drop
    refine ends_streamBlocks_cons onError absorbs _ _ (buf.take 16) kept rest s post hs hks hph
      (holds_blockOfBytes _ htake) rfl fun out d irq rs => ?_
    rw [ofbLoop, absorbLoop_append _ _ _ _ _ ((length_xorBytes _ _ htake.le).trans htake),
      ← List.append_assoc] at h
    refine ih (buf.drop 16) _ _ (by omega) (by omega) ⟨rfl, hs.errf, hs.keyReady⟩ hks ?phase ?_
    case phase => cases absorbs <;> exact hph
    cases absorbs <;> exact h

/-- R135: `stream KS` computes OFB, and `stream KSABS` absorbs its output too. -/
theorem ends_streamSeq {α : Type} (onError : Option α) (absorbs : Bool) (fill : Block)
    (buf : List Byte) (rest : List Byte → HostProg α) (s : State) (post : State → α → Prop)
    (hb : buf ≠ []) (hs : s.Ready) (hks : s.ksPhase = .krun)
    (hph : absorbs = true → s.absPhase = .pt)
    (h : EndsStreamed (rest (ofb Config.E s.regS buf).1) s (ofb Config.E s.regS buf).2 .kdone
      (if absorbs then absorb Config.E (ofb Config.E s.regS buf).1 s.regV else s.regV)
      (if absorbs then .tagrdy else s.absPhase) post) :
    (streamSeq onError (streamCmd absorbs) fill buf rest).Ends s post := by
  have hpos : 0 < buf.length := List.length_pos_iff.mpr hb
  have hlo : 16 * fullBlocks buf.length < buf.length := by unfold fullBlocks; omega
  have hhi : buf.length ≤ 16 * fullBlocks buf.length + 16 := by unfold fullBlocks; omega
  rw [ofb, if_pos ((present_iff buf).mpr hb), absorb, length_ofbLoop _ _ _ _ hlo hhi] at h
  exact ends_streamBlocks_chunksLoop onError absorbs fill _ buf [] rest s post hlo hhi hs hks hph h

/-- R30, R132: the seed of a command on its acceptance: V or TAGIN as they stand. -/
theorem State.acceptCmd_seed (s : State) (w : Word) (src : SeedSource) :
    (s.acceptCmd w).seed src = if src = .tag then s.regV else s.tagin := by
  cases src <;> rfl

/-- R88, R132: `do KSEED`. -/
theorem ends_doCmd_kseed {α : Type} (onError : Option α) (src : SeedSource) (rest : HostProg α)
    (s : State) (post : State → α → Prop) (hp : s.pend = none) (he : s.errf = false)
    (hks : s.ksPhase ≠ .krun) (htag : src = .tag → s.absPhase = .tagrdy)
    (h : EndsStreamed rest s (if src = .tag then s.regV else s.tagin) .krun s.regV s.absPhase
      post) :
    (doCmd onError (.kseed src) rest).Ends s post := by
  have hlegal : (s.acceptCmd (encode (.kseed src))).kseedLegal src = true := by
    cases src with
    | tag => simp [State.kseedLegal, hks, htag rfl]
    | tagin => simp [State.kseedLegal, hks]
  refine ends_doCmd_complete onError (.kseed src) rest s _ post hp he rfl nofun
    (runCommand_complete _ _ _ _ _ rfl hlegal nofun) he fun rs => ?_
  rw [← s.acceptCmd_seed (encode (.kseed src)) src] at h
  exact h 0 s.din (s.irqPend ||| irqDone) (s.responses ++ rs)

/-- Settles O46: KSEED loads the seed and keeps the absorption side, from where the stream sequence ends in a
state that holds the golden functions' values. -/
theorem streamSequencesComputeOfb : Obligations.StreamSequencesComputeOfb := by
  constructor
  · intro fill buf s src hb hp he hk hks htag
    refine ends_doCmd_kseed none src _ s _ hp he hks htag fun out d irq rs => ?_
    refine ends_streamSeq none false fill buf _ _ _ hb ⟨rfl, he, hk⟩ rfl nofun fun out d irq rs => ?_
    exact ends_ret _ _ _ rfl ⟨rfl, rfl, rfl, rfl, rfl, rfl, he, rfl⟩
  · intro fill buf s hb hp he hk hks hph
    refine ends_doCmd_kseed none .tagin _ s _ hp he hks nofun fun out d irq rs => ?_
    refine ends_streamSeq none true fill buf _ _ _ hb ⟨rfl, he, hk⟩ rfl (fun _ => hph)
      fun out d irq rs => ?_
    exact ends_ret _ _ _ rfl ⟨rfl, rfl, rfl, rfl, rfl, rfl, he, rfl⟩

end Sys2Proof.Machine
end

section
/-! `Check(w)` and the machine's own checks, 60_exceptions.md R187: the decoder makes the check of the fields,
and a decoded command makes the others in the order in which `Check(w)` lists them. -/

namespace Sys2Proof.Machine

open Sys2Proof.Laws.EncodeSelects (rowOf)

/-- R187: the check of the fields passes exactly the words of INIT to VERIFY. -/
theorem checkFields_iff (w : Word) :
    checkFields w = true ↔ ∃ i, decode w = .ok i ∧ i ≠ .clear := by
  have decodes : ∀ i, (rowOf i).selectedBy w = true → i = i.withFields w → decode w = .ok i :=
    fun i hrow hfields => (decode_eq_ok_iff w i).mpr ⟨eq_of_beq hrow, hfields⟩
  constructor
  · intro h
    unfold checkFields at h
    split at h
    · exact ⟨.init _ _, decodes _ h rfl, nofun⟩
    · exact ⟨.abs _ _ _, decodes _ h rfl, nofun⟩
    · exact ⟨.kseed _, decodes _ h rfl, nofun⟩
    · exact ⟨.ks _ _, decodes _ h rfl, nofun⟩
    · exact ⟨.ksabs _ _, decodes _ h rfl, nofun⟩
    · exact ⟨.verify, decodes _ h rfl, nofun⟩
    · cases h
  · rintro ⟨i, hd, hi⟩
    obtain ⟨hmask, -⟩ := (decode_eq_ok_iff w i).mp hd
    rw [checkFields, fieldOp_of_masked w _ (rowOf_mem_opTable i) hmask]
    cases i with
    | clear => exact absurd rfl hi
    | _ => exact beq_iff_eq.mpr hmask

/-- R84, R187: the length check on the bits of the word is that of the decoded length. -/
theorem lenLegal_fields (w : Word) : lenLegal (fieldFin w) (fieldLen w) = !checkBadLen w := by
  have hbits : checkBadLen w = (decide (fieldLen w = 0) || decide (16 < fieldLen w)
      || (!fieldFin w && decide (fieldLen w ≠ 16))) := rfl
  rw [Bool.eq_iff_iff, lenLegal_iff, hbits]
  cases fieldFin w <;> simp <;> omega

/-- R187, case ABS: the phase the decoded segment needs is that of the bit SEG. -/
theorem absLegal_fieldSeg (w : Word) (s : State) :
    s.absLegal (fieldSeg w) = decide (s.absPhase = if w.getLsbD 10 then .pt else .ad) := by
  unfold State.absLegal fieldSeg
  cases w.getLsbD 10 <;> rfl

/-- R187, case KSEED: the decoded source needs a tag unless the bit SRC is set. -/
theorem kseedLegal_fieldSrc (w : Word) (s : State) :
    s.kseedLegal (fieldSrc w)
      = (decide (s.ksPhase ≠ .krun) && (w.getLsbD 13 || decide (s.absPhase = .tagrdy))) := by
  unfold State.kseedLegal fieldSrc
  cases w.getLsbD 13 <;> rfl

/-- R187: a decoded command other than CLEAR makes the checks of `Check(w)` after the first, and its
effect records no error. -/
theorem exec_eq_runCommand_checks (w : Word) (i : Instr) (s : State) (hd : decode w = .ok i)
    (hi : i ≠ .clear) :
    ∃ effect, exec i s = runCommand (!(checkHasLen w && checkBadLen w)) (checkLegal w s)
        (checkNeedsKey w) effect s
      ∧ (effect s).errf = s.errf ∧ (effect s).cause = s.cause := by
  obtain ⟨hmask, hfields⟩ := (decode_eq_ok_iff w i).mp hd
  have hop := fieldOp_of_masked w _ (rowOf_mem_opTable i) hmask
  rw [hfields, checkNeedsKey, checkHasLen, checkLegal, hop]
  cases i with
  | init adp ptp => exact ⟨_, exec_init _ _ s, rfl, rfl⟩
  | abs seg fin len =>
    refine ⟨absEffect (fieldFin w) (fieldLen w), (exec_abs _ _ _ s).trans ?_, rfl, rfl⟩
    rw [lenLegal_fields, absLegal_fieldSeg]
    rfl
  | kseed src =>
    refine ⟨kseedEffect (fieldSrc w), (exec_kseed _ s).trans ?_, rfl, rfl⟩
    rw [kseedLegal_fieldSrc]
    rfl
  | ks fin len =>
    refine ⟨keystreamStep (fieldFin w) (fieldLen w), (exec_ks _ _ s).trans ?_, rfl, rfl⟩
    rw [lenLegal_fields]
    rfl
  | ksabs fin len =>
    refine ⟨ksabsEffect (fieldFin w) (fieldLen w), (exec_ksabs _ _ s).trans ?_, rfl, rfl⟩
    rw [lenLegal_fields]
    rfl
  | verify =>
    refine ⟨_, exec_verify s, ?_⟩
    unfold verifyEffect
    split_ifs <;> exact ⟨rfl, rfl⟩
  | clear => exact absurd rfl hi

/-- R187, R188: the checks end in a rejection with the cause of `Check(w)`, or else in completion. -/
theorem runCommand_checks (w : Word) (effect : State → State) (s : State)
    (hw : checkFields w = true) :
    runCommand (!(checkHasLen w && checkBadLen w)) (checkLegal w s) (checkNeedsKey w) effect s
      = .next (if checkWord w s = .none then (effect s).completeCmd
          else s.rejectCmd (checkWord w s)) := by
  rw [runCommand, checkWord, hw]
  cases checkHasLen w && checkBadLen w with
  | true => rfl
  | false =>
    cases checkLegal w s with
    | false => rfl
    | true => cases checkNeedsKey w && !s.keyReady <;> rfl

/-- R158: in the error state the engine step only empties the slot. -/
theorem engineStep_error (s : State) (hf : s.errf = true) : engineStep s = .next s.discard := by
  cases hp : s.pend with
  | none =>
    have hd : s.discard = s := by rw [State.discard, ← hp]
    simp [engineStep, hp, hd]
  | some q => simp [engineStep, hp, hf]

/-- R158: outside the error state the engine step executes a pending word of INIT to VERIFY. -/
theorem engineStep_exec (s : State) (q : Pending) (i : Instr) (hp : s.pend = some q)
    (hf : s.errf = false) (hd : decode q.word = .ok i) (hi : i ≠ .clear) :
    engineStep s = exec i s := by
  cases i with
  | clear => exact absurd rfl hi
  | _ => simp [engineStep, hp, hf, hd]

/-- R187: a word that fails the first check has the cause ILLEGAL. -/
theorem checkWord_of_checkFields_false (w : Word) (s : State) (hw : checkFields w = false) :
    checkWord w s = .illegal := by
  rw [checkWord, hw]
  rfl

/-- Settles O8: a word that fails the check of the fields decodes to no command of the engine step; any
other decodes to a command that makes the other checks. -/
theorem engineStepFollowsCheck : Obligations.EngineStepFollowsCheck := by
  refine ⟨fun s he hp => ?empty, fun s he hf => ?discarded, fun s q he hp hf hc => ?rejected,
    fun s q he hp hf hc => ?executed⟩
  case empty =>
    have hp' : s.advance.pend = none := hp
    rw [step_of_engineNext s he, engineStep, hp']
  case discarded =>
    rw [step_of_engineNext s he, engineStep_error s.advance hf]
    rfl
  case rejected =>
    cases hw : checkFields q.word with
    | false =>
      rw [checkWord_of_checkFields_false q.word s hw]
      refine step_illegal s q he hp hf fun i hd => by_contra fun hi => ?_
      exact Bool.false_ne_true (hw ▸ (checkFields_iff q.word).mpr ⟨i, hd, hi⟩)
    | true =>
      obtain ⟨i, hd, hi⟩ := (checkFields_iff q.word).mp hw
      obtain ⟨effect, hexec, -⟩ := exec_eq_runCommand_checks q.word i s.advance hd hi
      have hc' : checkWord q.word s.advance ≠ .none := hc
      rw [step_of_engineNext s he, engineStep_exec s.advance q i hp hf hd hi, hexec,
        runCommand_checks q.word effect s.advance hw, if_neg hc', s.advance.rejectCmd_eq _ hf]
      rfl
  case executed =>
    cases hw : checkFields q.word with
    | false => exact absurd ((checkWord_of_checkFields_false q.word s hw).symm.trans hc) nofun
    | true =>
      obtain ⟨i, hd, hi⟩ := (checkFields_iff q.word).mp hw
      obtain ⟨effect, hexec, herrf, hcause⟩ := exec_eq_runCommand_checks q.word i s.advance hd hi
      have hc' : checkWord q.word s.advance = .none := hc
      rw [runCommand_checks q.word effect s.advance hw, if_pos hc'] at hexec
      exact ⟨i, (effect s.advance).completeCmd, hd,
        (step_of_engineNext s he).trans (engineStep_exec s.advance q i hp hf hd hi), hexec, rfl,
        herrf.trans hf, hcause, by simp [irqDone]⟩

end Sys2Proof.Machine
end

section
/-! The host's write to CMD, 42_control.md R157. -/

namespace Sys2Proof.Machine

/-- R51: a host write is the write at the aligned offset of its word. -/
theorem busWrite_of_aligned (off o : BitVec 8) (v : Word) (s : State) (h : off &&& 0xFC = o) :
    busWrite off v s = busWrite o v s := by
  rw [← busWrite_aligned, h]

/-- R157: the CLEAR word executes CLEAR, in every state. -/
theorem cmdWrite_clear (s : State) : cmdWrite clearWord s = exec .clear s := if_pos rfl

/-- R157: in the error state a command word other than CLEAR is dropped. -/
theorem cmdWrite_error (w : Word) (s : State) (hw : w ≠ clearWord) (hf : s.errf = true) :
    cmdWrite w s = .next s := by
  rw [cmdWrite, if_neg hw, if_pos hf]

/-- R157: with a command pending, a command word other than CLEAR records BUSY. -/
theorem cmdWrite_busy (w : Word) (s : State) (hw : w ≠ clearWord) (hf : s.errf = false)
    (hp : s.pend ≠ none) : cmdWrite w s = .next (s.recordError .busy) := by
  rw [cmdWrite, if_neg hw, hf, if_neg Bool.false_ne_true, if_pos (s.busy_iff.mpr hp)]

/-- R157: with an empty slot, a command word other than CLEAR is accepted unchecked. -/
theorem cmdWrite_accept (w : Word) (s : State) (hw : w ≠ clearWord) (hf : s.errf = false)
    (hp : s.pend = none) : cmdWrite w s = .next (s.acceptCmd w) := by
  have hb : ¬ s.busy = true := fun h => s.busy_iff.mp h hp
  rw [cmdWrite, if_neg hw, hf, if_neg Bool.false_ne_true, if_neg hb]

/-- R190: the state after an error recorded outside the error state. -/
theorem State.recordError_eq (s : State) (c : Cause) (hf : s.errf = false) :
    s.recordError c = { s with errf := true, cause := c, irqPend := s.irqPend ||| 2 } := by
  simp [State.recordError, hf, irqErr]

/-- Settles O26: the write is `cmdWrite`, whose branches are the four clauses; a command that stays in
the slot beside a recorded BUSY is in the error state, where the engine step discards it. -/
theorem cmdWriteAccepts : Obligations.CmdWriteAccepts := by
  intro s off w rest hoff hs
  have hstep : step s = cmdWrite w s.advance := by
    rw [step_write_block s off w rest hs, busWrite_of_aligned off _ w _ hoff]
    rfl
  rw [hstep]
  refine ⟨fun hw => ?clear, fun hw hf => cmdWrite_error w s.advance hw hf,
    fun hw hf hp => ?busy, fun hw hf hp => cmdWrite_accept w s.advance hw hf hp⟩
  case clear =>
    rw [hw]
    exact cmdWrite_clear s.advance
  case busy =>
    rw [cmdWrite_busy w s.advance hw hf hp]
    refine ⟨congrArg _ (s.advance.recordError_eq .busy hf), ?_⟩
    rintro t ⟨⟩
    exact ⟨rfl, engineStep_error _ rfl⟩

end Sys2Proof.Machine
end

section
/-! The host's accesses by the word offset they reach, 42_control.md R155 and R156. -/

namespace Sys2Proof.Machine

/-- R51: a host read is the read at the aligned offset of its word. -/
theorem busRead_of_aligned (off o : BitVec 8) (s : State) (h : off &&& 0xFC = o) :
    busRead off s = busRead o s := by
  rw [← busRead_aligned, h]

/-- R50: every offset of the window, through the address decoder. -/
theorem decodeAddress_base_off (off : BitVec 8) :
    decodeAddress (Config.BASE + off.toNat) = .block off := by
  rw [decodeAddress_base_add off.toNat off.isLt, BitVec.ofNat_toNat, BitVec.setWidth_eq]

/-- R52: the words of DIN. -/
theorem registerAt_din (off : BitVec 8) (k : Nat) (hk : k < 4) (h : wordIndex off = 8 + k) :
    registerAt off = .din k := by
  interval_cases k <;> simp [registerAt, h]

/-- R52: the words of TAGIN. -/
theorem registerAt_tagin (off : BitVec 8) (k : Nat) (hk : k < 4) (h : wordIndex off = 20 + k) :
    registerAt off = .tagin k := by
  interval_cases k <;> simp [registerAt, h]

/-- R52: the index of the word at an aligned offset, counted from the start of its block register. -/
theorem wordIndex_eq_add (off : BitVec 8) (n k : Nat) (h : (off &&& 0xFC).toNat = 4 * n + 4 * k) :
    wordIndex off = n + k := by
  rw [toNat_aligned] at h
  omega

/-- R155: the word of DIN that a write reaches. -/
theorem busWrite_din (off : BitVec 8) (v : Word) (s : State) (k : Nat)
    (h : registerAt off = .din k) :
    busWrite off v s = .next { s with din := setBlockWord s.din k v } := by
  simp only [busWrite, h]

/-- R155: the word of TAGIN that a write reaches. -/
theorem busWrite_tagin (off : BitVec 8) (v : Word) (s : State) (k : Nat)
    (h : registerAt off = .tagin k) :
    busWrite off v s = .next { s with tagin := setBlockWord s.tagin k v } := by
  simp only [busWrite, h]

/-- Settles O27: the write reaches the register at the aligned offset; those of the list and the words of
DIN and TAGIN take it as said, and the rest ignore it. -/
theorem busWriteByOffset : Obligations.BusWriteByOffset := by
  intro s off v rest hs
  rw [decodeAddress_base_off] at hs
  rw [step_write_block s off v rest hs, ← BitVec.setWidth_eq_extractLsb' (by decide : 3 ≤ 32)]
  refine ⟨fun h => busWrite_of_aligned off _ v _ h, fun h => busWrite_of_aligned off _ v _ h,
    fun h => busWrite_of_aligned off _ v _ h, fun k hk h => ?din, fun k hk h => ?tagin,
    fun h => ?ignored⟩
  case din =>
    have hr := registerAt_din off k hk (wordIndex_eq_add off 8 k h)
    exact ⟨_, busWrite_din off v _ k hr, blockByte_setBlockWord s.din k v⟩
  case tagin =>
    have hr := registerAt_tagin off k hk (wordIndex_eq_add off 20 k h)
    exact ⟨_, busWrite_tagin off v _ k hr, blockByte_setBlockWord s.tagin k v⟩
  case ignored =>
    simp only [toNat_aligned, List.mem_cons, List.not_mem_nil, or_false] at h
    refine busWrite_ignored off v _ (registerAt_ignoresWrites off ?_)
    simp only [List.mem_cons, List.not_mem_nil, or_false]
    omega

/-- The step of a host's word read in the window records the word it answers, and changes nothing else. -/
theorem step_read_block (s : State) (off : BitVec 8) (rest : List Event)
    (h : s.schedule = .read (.block off) 4 :: rest) :
    step s = .next (s.advance.respond off (busRead off s)) := by
  rw [step_of_schedule s _ rest h, perform, if_pos rfl]
  rfl

/-- Settles O28: the read answers the word of the register at the aligned offset and only records it. -/
theorem busReadByOffset : Obligations.BusReadByOffset := by
  intro s off rest hs
  rw [decodeAddress_base_off] at hs
  refine ⟨busRead off s, step_read_block s off rest hs, fun h => busRead_of_aligned off _ s h,
    fun h => busRead_of_aligned off _ s h, fun h => busRead_of_aligned off _ s h,
    fun h => busRead_of_aligned off _ s h, fun h => busRead_of_aligned off _ s h,
    fun k hk h => ?din, fun k hk h => ?dout, fun k hk h => ?tag, fun k hk h => ?tagin,
    fun h => ?zero⟩
  case din => rw [busRead, registerAt_din off k hk (wordIndex_eq_add off 8 k h)]
  case dout => rw [busRead, registerAt_dout off k hk (wordIndex_eq_add off 12 k h)]
  case tag =>
    rw [busRead, registerAt_tag off k hk (wordIndex_eq_add off 16 k h)]
    simp only [State.tagView, State.tagValid_iff]
  case tagin => rw [busRead, registerAt_tagin off k hk (wordIndex_eq_add off 20 k h)]
  case zero =>
    obtain ⟨reads, -⟩ := reservedReadsZeroWritesIgnored
    obtain ⟨hzero, -⟩ := reads s off
    exact hzero h

end Sys2Proof.Machine
end

section
/-! The combined output of Encrypt, 45_host_protocol.md R175: the lengths of OFB and of the ciphertext, and the
words of the TAG view. -/

namespace Sys2Proof.Machine

/-- R130: OFB keeps the length, of an empty buffer too. -/
theorem length_ofb (E : Block → Block) (seed : Block) (buf : List Byte) :
    (ofb E seed buf).1.length = buf.length := by
  by_cases hb : present buf = true
  · have hpos : 0 < buf.length := List.length_pos_iff.mpr ((present_iff buf).mp hb)
    rw [ofb, if_pos hb]
    exact length_ofbLoop E _ buf seed (by unfold fullBlocks; omega) (by unfold fullBlocks; omega)
  · have hnil : buf = [] := not_not.mp (mt (present_iff buf).mpr hb)
    rw [ofb, if_neg hb, hnil]

/-- R130, R170: an absent plaintext needs no case of its own, since OFB of an empty buffer is empty. -/
theorem encrypt_ciphertext (E : Block → Block) (ad pt : List Byte) :
    (encrypt E ad pt).1 = (ofb E (mac E ad pt) pt).1 := by
  by_cases hp : present pt = true
  · simp only [encrypt, if_pos hp]
  · simp only [encrypt, ofb, if_neg hp]

/-- R170: the ciphertext is as long as the plaintext. -/
theorem length_encrypt (E : Block → Block) (ad pt : List Byte) :
    (encrypt E ad pt).1.length = pt.length := by
  rw [encrypt_ciphertext, length_ofb]

@[simp] theorem length_combinedOutput (out : List Byte × Block) :
    (combinedOutput out).length = out.1.length + 16 := by
  rw [combinedOutput, List.length_append, length_bytesOfBlock]

theorem take_combinedOutput (out : List Byte × Block) :
    (combinedOutput out).take out.1.length = out.1 :=
  List.take_left

/-- R175: after the ciphertext stand the bytes of the tag. -/
theorem getElem?_combinedOutput (out : List Byte × Block) (i : Nat) (hi : i < 16) :
    (combinedOutput out)[out.1.length + i]? = some (blockByte out.2 i) := by
  have hi' : i < (bytesOfBlock out.2).length := by rwa [length_bytesOfBlock]
  rw [combinedOutput, List.getElem?_append_right (Nat.le_add_right _ _), Nat.add_sub_cancel_left,
    List.getElem?_eq_getElem hi', getElem_bytesOfBlock out.2 i hi]

/-- R26: the TAG view shows V once the tag is complete. -/
theorem State.tagView_of_tagrdy (s : State) (h : s.absPhase = .tagrdy) : s.tagView = s.regV :=
  if_pos (s.tagValid_iff.mpr h)

/-- R52: the index of word `k` of TAG. -/
theorem wordIndex_tag (k : Nat) (hk : k < 4) : wordIndex (BitVec.ofNat 8 (0x40 + 4 * k)) = 16 + k := by
  interval_cases k <;> rfl

/-- R52, R156: a read of word `k` of TAG answers that word of the TAG view. -/
theorem busRead_tag (s : State) (k : Nat) (hk : k < 4) :
    busRead (BitVec.ofNat 8 (0x40 + 4 * k)) s = blockWord s.tagView k := by
  rw [busRead, registerAt_tag _ k hk (wordIndex_tag k hk)]

/-- Settles O49: the combined output is the ciphertext, whose length OFB keeps, joined to the bytes of the tag;
and a TAG word in TAGRDY is a word of V, whose byte lanes are R53's. -/
theorem combinedOutputAppendsTag : Obligations.CombinedOutputAppendsTag := by
  refine ⟨fun E ad pt => ?output, fun s k j hk hj hphase => ?view⟩
  case output =>
    rw [← length_encrypt E ad pt]
    exact ⟨rfl, length_combinedOutput _, take_combinedOutput _, getElem?_combinedOutput _⟩
  case view =>
    rw [busRead_tag s k hk, s.tagView_of_tagrdy hphase]
    exact wordByte_blockWord s.regV k j hj

end Sys2Proof.Machine
end

section
/-! Errors are precise, 60_exceptions.md R191: of all that a step can do, a rejected command and a BUSY write alone
set ERRF. -/

namespace Sys2Proof.Machine

/-- R150: a failing comparison records no error. -/
@[simp] theorem verifyEffect_errf (s : State) : (verifyEffect s).errf = s.errf := by
  unfold verifyEffect
  split_ifs <;> rfl

/-- A command that sets ERRF is rejected: no completion changes ERRF, and CLEAR clears it. -/
theorem ExecResult.rejected_of_sets_errf {s t : State} {i : Instr} (h : ExecResult s i t)
    (hs : s.errf = false) (ht : t.errf = true) : ∃ c, c ≠ .none ∧ t = s.rejectCmd c := by
  cases h with
  | rejected i c hi hc hb => exact ⟨c, hc, rfl⟩
  | verify =>
    have hkeeps : (verifyEffect s).completeCmd.errf = false := (verifyEffect_errf s).trans hs
    exact absurd (hkeeps.symm.trans ht) Bool.false_ne_true
  | clear => exact absurd ht Bool.false_ne_true
  | _ => exact absurd (hs.symm.trans ht) Bool.false_ne_true

/-- R157: a host write that sets ERRF is a CMD write other than CLEAR while a command is pending. -/
theorem WriteResult.busy_of_sets_errf {s t : State} {off : BitVec 8} {v : Word}
    (h : WriteResult s off v t) (hs : s.errf = false) (ht : t.errf = true) :
    registerAt off = .cmd ∧ v ≠ clearWord ∧ s.pend.isSome = true ∧ t = s.recordError .busy := by
  cases h with
  | busy hr hw he hp => exact ⟨hr, hw, hp, rfl⟩
  | clear => exact absurd ht Bool.false_ne_true
  | _ => exact absurd (hs.symm.trans ht) Bool.false_ne_true

/-- R191: what a step that sets ERRF does: it rejects the pending command, or records BUSY for a CMD write. -/
theorem StepResult.rejection_of_sets_errf {s t : State} (h : StepResult s t) (hs : s.errf = false)
    (ht : t.errf = true) :
    (s.engineNext = true ∧ s.pend.isSome = true ∧ ∃ c, c ≠ .none ∧ t = s.advance.rejectCmd c)
      ∨ ∃ off w rest, s.schedule = .write (.block off) 4 w :: rest ∧ registerAt off = .cmd
        ∧ w ≠ clearWord ∧ s.pend.isSome = true ∧ t = s.advance.recordError .busy := by
  cases h with
  | illegal q he hp => exact .inl ⟨he, by rw [hp]; rfl, .illegal, nofun, rfl⟩
  | executed q i _ he hp hf hd hi hx hr =>
    exact .inl ⟨he, by rw [hp]; rfl, hr.rejected_of_sets_errf hs ht⟩
  | write off w rest _ hsched hr =>
    obtain ⟨hcmd, hw, hpend, rfl⟩ := hr.busy_of_sets_errf hs ht
    exact .inr ⟨off, w, rest, hsched, hcmd, hw, hpend, rfl⟩
  | reset => exact absurd ht Bool.false_ne_true
  | _ => exact absurd (hs.symm.trans ht) Bool.false_ne_true

/-- Settles O23: each of the two rejections, outside the error state, is the update the statement lists. -/
theorem errorsArePrecise : Obligations.ErrorsArePrecise := by
  intro s t hstep hs ht
  have hs' : s.advance.errf = false := hs
  rcases (step_result s t hstep).rejection_of_sets_errf hs ht with
    ⟨hengine, hpend, c, hc, rfl⟩ | ⟨off, w, rest, hsched, hcmd, hw, hpend, rfl⟩
  · rw [s.advance.rejectCmd_eq c hs']
    exact .inl ⟨hengine, hpend, hc, rfl⟩
  · rw [s.advance.recordError_eq .busy hs']
    exact .inr ⟨⟨off, w, rest, hsched, hcmd, hw⟩, hpend, rfl⟩

end Sys2Proof.Machine
end

section
/-! Reset and CLEAR, 70_reset_and_hazards.md R215 and R216: the state each leaves, and that the block then waits
for the host. -/

namespace Sys2Proof.Machine

/-- R215: the reset event. -/
theorem perform_reset (s : State) : perform .reset s = .next s.resetBlock := rfl

/-- R195: no interrupt while none is enabled, whatever is pending. -/
theorem State.irq_of_irqEn_zero (s : State) (h : s.irqEn = 0) : s.irq = false := by
  simp [State.irq, h]

/-- R158: the engine step is not enabled with an empty slot. -/
theorem engineStep_of_pend_none (s : State) (h : s.pend = none) : engineStep s = .next s := by
  simp [engineStep, h]

/-- Past the event at its head, the interleaving still to come is the rest. -/
theorem State.advance_of_schedule (s : State) (e : Event) (rest : List Event)
    (h : s.schedule = e :: rest) : s.advance = s.withSchedule rest := by
  simp [State.advance, h]

/-- R216: reset is CLEAR with IRQ_EN zeroed. -/
theorem State.resetBlock_eq_clearBlock (s : State) :
    s.resetBlock = { s.clearBlock with irqEn := 0 } := rfl

/-- Settles O58: the reset event leaves `resetBlock`, whose fields are R40's; with IRQ_EN zero its line is low. -/
theorem resetSetsEveryRegister : Obligations.ResetSetsEveryRegister := by
  refine ⟨fun s rest hs => ⟨(s.withSchedule rest).resetBlock, ?step, ?irq, rfl⟩, ?powerUp, rfl⟩
  case step => rw [step_of_schedule s .reset rest hs, s.advance_of_schedule .reset rest hs, perform_reset]
  case irq => exact State.irq_of_irqEn_zero _ (State.resetBlock_irqEn _)
  case powerUp => exact State.irq_of_irqEn_zero _ rfl

/-- Settles O59: reset is CLEAR with IRQ_EN zeroed, and both empty the slot, so the engine step is idle. -/
theorem resetAndClearDifferInIrqEn : Obligations.ResetAndClearDifferInIrqEn := by
  intro s
  have hclear : s.clearBlock.pend = none := s.clearBlock_pend
  have hreset : s.resetBlock.pend = none := s.resetBlock_pend
  exact ⟨s.clearBlock, s.resetBlock, exec_clear s, perform_reset s, s.resetBlock_eq_clearBlock,
    s.clearBlock_irqEn, hclear, hreset, engineStep_of_pend_none _ hclear,
    engineStep_of_pend_none _ hreset⟩

end Sys2Proof.Machine
end

section
/-! The round trip from a word to its command and back, 30_encoding.md R81, R82 and R87: the word is the row's
opcode and, in the bits the mask leaves free, the command's fields. -/

namespace Sys2Proof

open Sys2Proof.Laws.EncodeSelects (rowOf)

/-- R87: a one-bit field put back in its place is that bit of the word. -/
theorem placed_bitWord_getLsbD (w : Word) (k : Nat) :
    placed (bitWord (w.getLsbD k)) k = w &&& BitVec.twoPow 32 k := by
  rw [BitVec.and_twoPow]
  cases w.getLsbD k with
  | false => simp [placed, bitWord]
  | true => rfl

/-- R87: the length put back in its place is bits 8:4 of the word. -/
theorem placed_fieldLen (w : Word) : placed (BitVec.ofNat 32 (fieldLen w)) 4 = w &&& 0x1F0 := by
  have hmask : (0x1F0 : Word) = (BitVec.allOnes 5).setWidth 32 <<< 4 := by decide
  apply BitVec.eq_of_getLsbD_eq
  intro i hi
  rw [placed, fieldLen, BitVec.ofNat_toNat, hmask]
  simp only [BitVec.getLsbD_shiftLeft, BitVec.getLsbD_setWidth, BitVec.getLsbD_extractLsb',
    BitVec.getLsbD_and, BitVec.getLsbD_allOnes]
  by_cases h : i < 4
  · simp [h]
  · rw [Nat.add_sub_cancel' (Nat.not_lt.mp h)]
    simp [h, hi, show i - 4 < 32 by omega, Bool.and_comm]

theorem bit_fieldSeg (w : Word) : (fieldSeg w).bit = w.getLsbD 10 := by
  unfold fieldSeg
  cases w.getLsbD 10 <;> rfl

theorem bit_fieldSrc (w : Word) : (fieldSrc w).bit = w.getLsbD 13 := by
  unfold fieldSrc
  cases w.getLsbD 13 <;> rfl

/-- R82: a word that a row selects is the row's opcode and its own bits outside the mask. -/
theorem eq_op_or_unmasked (w : Word) (r : OpRow) (h : w &&& r.mask = r.op) :
    r.op ||| (w &&& ~~~r.mask) = w := by
  rw [← h, ← BitVec.and_or_distrib_left, BitVec.or_not_self, BitVec.and_allOnes]

/-- R81, R87: the word of the command whose operands are the fields of `w` has, beside its opcode, the bits of
`w` that the command's mask leaves free. -/
theorem encode_withFields (w : Word) (i : Instr) :
    encode (i.withFields w) = (rowOf i).op ||| (w &&& ~~~(rowOf i).mask) := by
  cases i with
  | init adp ptp =>
    have hfree : ~~~rowInit.mask = BitVec.twoPow 32 11 ||| BitVec.twoPow 32 12 := by decide
    simp only [Instr.withFields, encode, rowOf, fieldAdp, fieldPtp, placed_bitWord_getLsbD, hfree,
      BitVec.and_or_distrib_left, BitVec.or_assoc]
  | abs seg fin len =>
    have hfree : ~~~rowAbs.mask = (0x1F0 : Word) ||| BitVec.twoPow 32 9 ||| BitVec.twoPow 32 10 := by decide
    simp only [Instr.withFields, encode, rowOf, fieldFin, bit_fieldSeg, placed_fieldLen,
      placed_bitWord_getLsbD, hfree, BitVec.and_or_distrib_left, BitVec.or_assoc]
  | kseed src =>
    have hfree : ~~~rowKseed.mask = BitVec.twoPow 32 13 := by decide
    simp only [Instr.withFields, encode, rowOf, bit_fieldSrc, placed_bitWord_getLsbD, hfree]
  | ks fin len =>
    have hfree : ~~~rowKs.mask = (0x1F0 : Word) ||| BitVec.twoPow 32 9 := by decide
    simp only [Instr.withFields, encode, rowOf, fieldFin, placed_fieldLen, placed_bitWord_getLsbD, hfree,
      BitVec.and_or_distrib_left, BitVec.or_assoc]
  | ksabs fin len =>
    have hfree : ~~~rowKsabs.mask = (0x1F0 : Word) ||| BitVec.twoPow 32 9 := by decide
    simp only [Instr.withFields, encode, rowOf, fieldFin, placed_fieldLen, placed_bitWord_getLsbD, hfree,
      BitVec.and_or_distrib_left, BitVec.or_assoc]
  | verify =>
    have hfree : ~~~rowVerify.mask = 0#32 := by decide
    rw [Instr.withFields, encode, rowOf, hfree, BitVec.and_zero, BitVec.or_zero]
  | clear =>
    have hfree : ~~~rowClear.mask = 0#32 := by decide
    rw [Instr.withFields, encode, rowOf, hfree, BitVec.and_zero, BitVec.or_zero]

/-- R80: the length read from five bits fits five bits. -/
theorem withFields_wellFormed (w : Word) (i : Instr) : (i.withFields w).wellFormed = true := by
  have hlen : lenEncodable (fieldLen w) = true := decide_eq_true (w.extractLsb' 4 5).isLt
  cases i with
  | abs | ks | ksabs => exact hlen
  | init | kseed | verify | clear => rfl

/-- Settles O2: the word of a command is selected by its row, and its fields are the operands. -/
theorem decodeOfEncodeIsInstruction : Obligations.DecodeOfEncodeIsInstruction :=
  decode_encode

/-- Settles O3: a decoded command's operands are the word's fields, which fit their field widths and with the
row's opcode make up the word again. -/
theorem encodeOfDecodeIsWord : Obligations.EncodeOfDecodeIsWord := by
  intro w i hd
  obtain ⟨hmask, hfields⟩ := (decode_eq_ok_iff w i).mp hd
  constructor
  · rw [hfields]
    exact withFields_wellFormed w i
  · calc encode i = encode (i.withFields w) := congrArg encode hfields
      _ = (rowOf i).op ||| (w &&& ~~~(rowOf i).mask) := encode_withFields w i
      _ = w := eq_op_or_unmasked w (rowOf i) hmask

/-- Settles O1: each written-out word is evaluated. -/
theorem writtenWordsDecode : Obligations.WrittenWordsDecode :=
  ⟨rfl, rfl, rfl, rfl, rfl, rfl, rfl, rfl, rfl, rfl, rfl⟩

end Sys2Proof
end

section
/-! The invariants of 10_state.md R41 (a) to (e) and of the slot, 60_exceptions.md R157: each shared operation and
each command's effect keeps them, and so does every step. -/

namespace Sys2Proof.Machine

/-- R30: a command that ends empties the slot, so the slot's invariant holds after it. -/
theorem State.slotNotClear_of_pend_none (s : State) (h : s.pend = none) : s.slotNotClear := by
  simp [State.slotNotClear, h]

theorem State.Inv.discard {s : State} (h : s.Inv) : s.discard.Inv := by
  obtain ⟨hidle, hkidle, hauth, hcause, hflag, -⟩ := h
  exact ⟨hidle, hkidle, hauth, hcause, hflag, State.slotNotClear_of_pend_none _ rfl⟩

theorem State.Inv.completeCmd {s : State} (h : s.Inv) : s.completeCmd.Inv := h.discard

/-- R41(d): recording an error sets ERRF, and the cause is the new one or the first. -/
theorem State.Inv.recordError {s : State} (h : s.Inv) (c : Cause) (hc : c ≠ .none) :
    (s.recordError c).Inv := by
  obtain ⟨hidle, hkidle, hauth, hcause, hflag, hslot⟩ := h
  refine ⟨hidle, hkidle, hauth, iff_of_false nofun fun hnone => ?_, hflag, hslot⟩
  cases hf : s.errf with
  | false =>
    rw [State.recordError_cause, hf] at hnone
    exact hc hnone
  | true =>
    rw [State.recordError_cause, hf] at hnone
    exact Bool.false_ne_true ((hcause.mpr hnone).symm.trans hf)

theorem State.Inv.rejectCmd {s : State} (h : s.Inv) (c : Cause) (hc : c ≠ .none) :
    (s.rejectCmd c).Inv :=
  h.discard.recordError c hc

/-- R157: the slot takes any command word but CLEAR. -/
theorem State.Inv.acceptCmd {s : State} (h : s.Inv) (w : Word) (hw : w ≠ clearWord) :
    (s.acceptCmd w).Inv := by
  obtain ⟨hidle, hkidle, hauth, hcause, hflag, -⟩ := h
  exact ⟨hidle, hkidle, hauth, hcause, hflag, by simp [State.slotNotClear, hw]⟩

/-- R40, R41: at the reset values of the block's registers the invariants hold. -/
theorem State.inv_reset (en : BitVec 3) (key : Bool) (es : List Event) (rs : List Response) :
    ({ State.reset with irqEn := en, keyReady := key, schedule := es, responses := rs } : State).Inv :=
  ⟨fun _ => ⟨rfl, rfl, rfl, rfl⟩, fun _ => rfl, fun h => absurd rfl h, iff_of_true rfl rfl,
    ⟨nofun, nofun⟩, State.slotNotClear_of_pend_none _ rfl⟩

/-- R110: INIT leaves IDLE, and enters a segment's phase only with the segment's flag. -/
theorem phaseAfterInit_ne_idle (adp ptp : Bool) : phaseAfterInit adp ptp ≠ .idle := by
  cases adp <;> cases ptp <;> decide

theorem phaseAfterInit_eq_ad_iff (adp ptp : Bool) : phaseAfterInit adp ptp = .ad ↔ adp = true := by
  cases adp <;> cases ptp <;> decide

theorem phaseAfterInit_eq_pt_iff (adp ptp : Bool) :
    phaseAfterInit adp ptp = .pt ↔ adp = false ∧ ptp = true := by
  cases adp <;> cases ptp <;> decide

theorem State.Inv.initEffect {s : State} (h : s.Inv) (adp ptp : Bool) :
    (initEffect adp ptp s).Inv := by
  obtain ⟨-, hkidle, -, hcause, -, hslot⟩ := h
  exact ⟨fun hi => absurd hi (phaseAfterInit_ne_idle adp ptp), hkidle, fun ha => absurd rfl ha, hcause,
    ⟨(phaseAfterInit_eq_ad_iff adp ptp).mp, fun hp => ((phaseAfterInit_eq_pt_iff adp ptp).mp hp).2⟩, hslot⟩

/-- R27: from a segment's phase a block leads to that phase, or from AD to PT if PTP, or to TAGRDY. -/
theorem phaseAfterBlock_cases (seg : Segment) (fin ptp : Bool) :
    (fin = false ∧ phaseAfterBlock fin (segPhase seg) ptp = segPhase seg)
      ∨ (fin = true ∧ seg = .ad ∧ ptp = true ∧ phaseAfterBlock fin (segPhase seg) ptp = .pt)
      ∨ (fin = true ∧ (seg = .ad → ptp = false)
        ∧ phaseAfterBlock fin (segPhase seg) ptp = .tagrdy) := by
  cases seg <;> cases fin <;> cases ptp <;> simp [phaseAfterBlock, phaseAfterFinal, segPhase]

theorem absEffect_absPhase (fin : Bool) (len : Nat) (s : State) :
    (absEffect fin len s).absPhase = phaseAfterBlock fin s.absPhase s.ptp := rfl

theorem segPhase_ne_idle (seg : Segment) : segPhase seg ≠ .idle := by
  cases seg <;> decide

theorem segPhase_ne_tagrdy (seg : Segment) : segPhase seg ≠ .tagrdy := by
  cases seg <;> decide

theorem State.Inv.absEffect {s : State} (h : s.Inv) (seg : Segment) (fin : Bool) (len : Nat)
    (hp : s.absPhase = segPhase seg) : (absEffect fin len s).Inv := by
  obtain ⟨-, hkidle, hauth, hcause, hflag, hslot⟩ := h
  have hnoauth : s.auth = .none :=
    by_contra fun ha => segPhase_ne_tagrdy seg (hp.symm.trans (hauth ha))
  rw [State.phaseHasFlag, hp] at hflag
  have hnext : (Machine.absEffect fin len s).absPhase ≠ .idle
      ∧ (Machine.absEffect fin len s).phaseHasFlag := by
    rw [State.phaseHasFlag, absEffect_absPhase, hp]
    rcases phaseAfterBlock_cases seg fin s.ptp with ⟨-, hn⟩ | ⟨-, -, hptp, hn⟩ | ⟨-, -, hn⟩ <;> rw [hn]
    · exact ⟨segPhase_ne_idle seg, hflag⟩
    · exact ⟨nofun, nofun, fun _ => hptp⟩
    · exact ⟨nofun, nofun, nofun⟩
  exact ⟨fun hi => absurd hi hnext.1, hkidle, fun ha => absurd hnoauth ha, hcause, hnext.2, hslot⟩

theorem State.Inv.kseedEffect {s : State} (h : s.Inv) (src : SeedSource) : (kseedEffect src s).Inv := by
  obtain ⟨hidle, -, hauth, hcause, hflag, hslot⟩ := h
  exact ⟨hidle, nofun, hauth, hcause, hflag, hslot⟩

theorem State.Inv.keystreamStep {s : State} (h : s.Inv) (fin : Bool) (len : Nat)
    (hp : s.ksPhase = .krun) : (keystreamStep fin len s).Inv := by
  obtain ⟨hidle, -, hauth, hcause, hflag, hslot⟩ := h
  refine ⟨hidle, fun hk => ?_, hauth, hcause, hflag, hslot⟩
  cases fin with
  | false => exact absurd (hp.symm.trans hk) nofun
  | true => cases hk

/-- R134: the absorption side of KSABS, on the state its keystream step leaves. -/
theorem State.Inv.ksabsEffect {s : State} (h : s.Inv) (fin : Bool) (len : Nat)
    (hp : s.ksPhase = .krun) (ha : s.absPhase = .pt) : (ksabsEffect fin len s).Inv := by
  obtain ⟨-, hkidle, hauth, hcause, hflag, hslot⟩ := h.keystreamStep fin len hp
  have hnoauth : s.auth = .none := by_contra fun hn => absurd (ha.symm.trans (hauth hn)) nofun
  have hnext : (Machine.ksabsEffect fin len s).absPhase ≠ .idle
      ∧ (Machine.ksabsEffect fin len s).phaseHasFlag := by
    cases fin with
    | false => exact ⟨fun hi => absurd (ha.symm.trans hi) nofun, hflag⟩
    | true => exact ⟨nofun, nofun, nofun⟩
  exact ⟨fun hi => absurd hi hnext.1, hkidle, fun hn => absurd hnoauth hn, hcause, hnext.2, hslot⟩

theorem State.Inv.verifyEffect {s : State} (h : s.Inv) (hp : s.absPhase = .tagrdy) :
    (verifyEffect s).Inv := by
  obtain ⟨-, hkidle, -, hcause, hflag, hslot⟩ := h
  unfold Machine.verifyEffect
  split_ifs <;>
    exact ⟨fun hi => absurd (hp.symm.trans hi) nofun, hkidle, fun _ => hp, hcause, hflag, hslot⟩

/-- Every command keeps the invariants, whether it is rejected or completes. -/
theorem ExecResult.inv {s t : State} {i : Instr} (hr : ExecResult s i t) (h : s.Inv) : t.Inv := by
  cases hr with
  | rejected i c hi hc hb => exact h.rejectCmd c hc
  | init adp ptp => exact (h.initEffect adp ptp).completeCmd
  | abs seg fin len hl hp => exact (h.absEffect seg fin len hp).completeCmd
  | kseed src => exact (h.kseedEffect src).completeCmd
  | ks fin len hl hp => exact (h.keystreamStep fin len hp).completeCmd
  | ksabs fin len hl hp ha => exact (h.ksabsEffect fin len hp ha).completeCmd
  | verify hp => exact (h.verifyEffect hp).completeCmd
  | clear => exact State.inv_reset _ _ _ _

/-- R155, R157: every host write keeps the invariants, which say nothing of the registers it reaches. -/
theorem WriteResult.inv {s t : State} {off : BitVec 8} {v : Word} (hr : WriteResult s off v t)
    (h : s.Inv) : t.Inv := by
  cases hr with
  | clear => exact State.inv_reset _ _ _ _
  | busy => exact h.recordError .busy nofun
  | accept _ hw => exact h.acceptCmd v hw
  | ignored | irqEn | irqPend | din | tagin => exact h

/-- Settles O52, by the inversion of a step. -/
theorem stepKeepsInvariants : Obligations.StepKeepsInvariants := by
  intro s t h hstep
  have ha : s.advance.Inv := h
  cases step_result s t hstep with
  | discarded => exact ha.discard
  | illegal => exact ha.rejectCmd .illegal nofun
  | executed _ _ _ _ _ _ _ _ _ hr => exact hr.inv ha
  | write _ _ _ _ _ hr => exact hr.inv ha
  | reset => exact State.inv_reset _ _ _ _
  | engineIdle | read | elsewhere | keyReady => exact ha

/-- Settles O51: the invariants hold at the reset values, whatever the level of KEY_READY, the interleaving and
the record of responses. -/
theorem invariantsHoldAtReset : Obligations.InvariantsHoldAtReset :=
  ⟨State.inv_reset _ _ _ _, State.inv_reset _⟩

end Sys2Proof.Machine
end

section
/-! The engine step and where a step stops, 42_control.md R158, 70_reset_and_hazards.md R224 and R229,
20_memory.md R50: a pending command always leaves the slot, and only the environment's own events are refused. -/

namespace Sys2Proof.Machine

/-- R158: every command ends with the slot empty. -/
theorem ExecResult.pend {s t : State} {i : Instr} (h : ExecResult s i t) : t.pend = none := by
  cases h <;> rfl

/-- R187: outside the error state the engine step rejects with ILLEGAL a word that is none of INIT to VERIFY. -/
theorem engineStep_illegal (s : State) (q : Pending) (hp : s.pend = some q) (hf : s.errf = false)
    (hd : ∀ i, decode q.word = .ok i → i = .clear) : engineStep s = .next (s.rejectCmd .illegal) := by
  cases hw : decode q.word with
  | error e => simp [engineStep, hp, hf, hw]
  | ok i =>
    cases hd i hw
    simp [engineStep, hp, hf, hw]

/-- R158, R229: the engine step ends in a next state, with the slot empty. -/
theorem engineStep_next (s : State) : ∃ t, engineStep s = .next t ∧ t.pend = none := by
  cases hp : s.pend with
  | none => exact ⟨s, engineStep_of_pend_none s hp, hp⟩
  | some q =>
    cases hf : s.errf with
    | true => exact ⟨s.discard, engineStep_error s hf, rfl⟩
    | false =>
      by_cases hd : ∀ i, decode q.word = .ok i → i = .clear
      · exact ⟨s.rejectCmd .illegal, engineStep_illegal s q hp hf hd, rfl⟩
      · push Not at hd
        obtain ⟨i, hd, hi⟩ := hd
        obtain ⟨t, ht⟩ := exec_next i s
        exact ⟨t, (engineStep_exec s q i hp hf hd hi).trans ht, (exec_result i s t ht).pend⟩

/-- Settles O9: the step is the engine step, which leaves the slot empty. -/
theorem engineStepEmptiesSlot : Obligations.EngineStepEmptiesSlot := by
  intro s he
  obtain ⟨t, ht, hp⟩ := engineStep_next s.advance
  exact ⟨t, (step_of_engineNext s he).trans ht, hp, by rw [State.busy, hp]; rfl⟩

/-- Settles O6: the engine step executes the decoded word; and only the CLEAR word decodes to CLEAR, which its
write executes. -/
theorem stepRunsDecodedInstruction : Obligations.StepRunsDecodedInstruction := by
  constructor
  · intro s q i he hp hf hd hi
    exact (step_of_engineNext s he).trans (engineStep_exec s.advance q i hp hf hd hi)
  · intro s off w rest hs hoff hd
    obtain ⟨-, hw⟩ := encodeOfDecodeIsWord w .clear hd
    rw [step_write_block s off w rest hs, busWrite_of_aligned off _ w _ hoff, ← hw]
    exact cmdWrite_clear s.advance

/-- A word of 32 bits is placed as it stands. -/
theorem State.withFetchWord_toNat (s : State) (w : Word) :
    s.withFetchWord 32 w.toNat = placeWord s w := by
  rw [State.withFetchWord, Nat.mod_eq_of_lt w.isLt, BitVec.ofNat_toNat, BitVec.setWidth_eq]

/-- R58: the step of an event put before the interleaving to come. -/
theorem step_withSchedule_cons (s : State) (e : Event) :
    step (s.withSchedule (e :: s.schedule)) = perform e s := rfl

/-- Settles O7: the CLEAR word is placed as its write to CMD, which executes it; any other word in the slot,
from where the engine step executes it. -/
theorem placedInstructionRunsNext : Obligations.PlacedInstructionRunsNext := by
  intro s i hwf hf
  rw [s.withFetchWord_toNat, placeWord]
  by_cases hi : i = .clear
  · subst hi
    rw [if_pos (show encode .clear = clearWord from rfl), if_pos rfl, step_withSchedule_cons]
    rfl
  · rw [if_neg (encode_ne_clearWord i hwf hi), if_neg hi]
    exact engineStep_exec (s.acceptCmd (encode i)) _ i rfl hf (decode_encode i hwf) hi

/-- R224: KEY_READY rises at any time, and drops between operations. -/
theorem perform_keyReady_admitted (s : State) (k : Bool)
    (h : k = true ∨ s.keyReady = false ∨ s.pend = none ∧ s.inOperation = false) :
    perform (.keyReady k) s = .next { s with keyReady := k } := by
  rcases h with rfl | hk | ⟨hp, ho⟩
  · simp [perform]
  · simp [perform, hk]
  · simp [perform, hp, ho, State.busy]

/-- R224: no drop while a command is pending. -/
theorem perform_keyDrop_pending (s : State) (hk : s.keyReady = true) (hp : s.pend ≠ none) :
    perform (.keyReady false) s = .refused .keyDropWhilePending := by
  simp [perform, hk, s.busy_iff.mpr hp]

/-- R224: no drop while an operation is in progress. -/
theorem perform_keyDrop_inOperation (s : State) (hk : s.keyReady = true) (hp : s.pend = none)
    (ho : s.inOperation = true) :
    perform (.keyReady false) s = .refused .keyDropInOperation := by
  simp [perform, hk, hp, ho, State.busy]

/-- R55, R224: what refuses an event. -/
theorem perform_refused (e : Event) (s : State) (r : Refusal) (h : perform e s = .refused r) :
    (∃ off n, n ≠ 4 ∧ r = .accessWidth n
        ∧ (e = .read (.block off) n ∨ ∃ v, e = .write (.block off) n v))
      ∨ (r = .keyChanged ∧ e = .keyChange)
      ∨ (r = .keyDropWhilePending ∧ s.keyReady = true ∧ s.pend ≠ none ∧ e = .keyReady false)
      ∨ (r = .keyDropInOperation ∧ s.keyReady = true ∧ s.pend = none ∧ s.inOperation = true
        ∧ e = .keyReady false) := by
  cases e with
  | read tgt n =>
    cases tgt with
    | elsewhere => cases h
    | block off =>
      by_cases hn : n = 4
      · rw [perform, if_pos hn] at h
        cases h
      · rw [perform_read_other_width off n s hn] at h
        cases h
        exact .inl ⟨off, n, hn, rfl, .inl rfl⟩
  | write tgt n v =>
    cases tgt with
    | elsewhere => cases h
    | block off =>
      by_cases hn : n = 4
      · obtain ⟨t, ht⟩ := busWrite_next off v s
        rw [perform, if_pos hn, ht] at h
        cases h
      · rw [perform_write_other_width off n v s hn] at h
        cases h
        exact .inl ⟨off, n, hn, rfl, .inr ⟨v, rfl⟩⟩
  | engine =>
    obtain ⟨t, ht, -⟩ := engineStep_next s
    cases ht.symm.trans h
  | keyReady k =>
    by_cases hadm : k = true ∨ s.keyReady = false ∨ s.pend = none ∧ s.inOperation = false
    · cases (perform_keyReady_admitted s k hadm).symm.trans h
    · simp only [not_or, not_and, Bool.not_eq_true, Bool.not_eq_false] at hadm
      obtain ⟨rfl, hk, ho⟩ := hadm
      by_cases hp : s.pend = none
      · cases (perform_keyDrop_inOperation s hk hp (ho hp)).symm.trans h
        exact .inr (.inr (.inr ⟨rfl, hk, hp, ho hp, rfl⟩))
      · cases (perform_keyDrop_pending s hk hp).symm.trans h
        exact .inr (.inr (.inl ⟨rfl, hk, hp, rfl⟩))
  | keyChange =>
    cases h
    exact .inr (.inl ⟨rfl, rfl⟩)
  | reset => cases h

/-- Settles O10: there is no fault to stop with; and a refused step is a refused event, since the engine step
alone answers a next state. -/
theorem stepsStopOnlyByRefusal : Obligations.StepsStopOnlyByRefusal := by
  refine ⟨fun _ f => (nomatch f), fun s r h => ?_⟩
  cases hs : s.schedule with
  | nil =>
    have he : s.engineNext = true := by rw [State.engineNext, hs]
    obtain ⟨t, ht, -⟩ := engineStep_next s.advance
    cases ((step_of_engineNext s he).trans ht).symm.trans h
  | cons e rest =>
    rw [step_of_schedule s e rest hs] at h
    rcases perform_refused e s.advance r h with
      ⟨off, n, hn, rfl, rfl | ⟨v, rfl⟩⟩ | ⟨rfl, rfl⟩ | ⟨rfl, hk, hp, rfl⟩ | ⟨rfl, hk, hp, ho, rfl⟩
    · exact .inl ⟨off, n, rest, hn, rfl, .inl rfl⟩
    · exact .inl ⟨off, n, rest, hn, rfl, .inr ⟨v, rfl⟩⟩
    · exact .inr (.inl ⟨rfl, rest, rfl⟩)
    · exact .inr (.inr (.inl ⟨rfl, hk, hp, rest, rfl⟩))
    · exact .inr (.inr (.inr ⟨rfl, hk, hp, ho, rest, rfl⟩))

/-- R50: outside the window no address reaches the block. -/
theorem decodeAddress_elsewhere (a : Nat) (h : a < Config.BASE ∨ Config.BASE + 256 ≤ a) :
    decodeAddress a = .elsewhere := by
  rw [decodeAddress, if_neg (by omega)]

/-- Settles O32: the window's offsets and the other addresses through the decoder; an access that reaches no
target is a step that changes nothing. -/
theorem windowDecodesAddresses : Obligations.WindowDecodesAddresses := by
  refine ⟨decodeAddress_base_off, decodeAddress_elsewhere, fun s n v rest hs => ?_⟩
  rcases hs with hs | hs
  · exact step_of_schedule s _ rest hs
  · exact step_of_schedule s _ rest hs

/-- R195: the line is the join of the three enabled and pending sources. -/
theorem State.irq_iff (s : State) : s.irq = true ↔ s.irqEn &&& s.irqPend ≠ 0 := by
  have hbits : ∀ en pend : BitVec 3,
      (en.getLsbD 0 && pend.getLsbD 0 || en.getLsbD 1 && pend.getLsbD 1
        || en.getLsbD 2 && pend.getLsbD 2) = true ↔ en &&& pend ≠ 0 := by
    decide
  exact hbits s.irqEn s.irqPend

/-- Settles O35: the line is a function of IRQ_EN and IRQ_PEND alone. -/
theorem irqLineIsEnabledPending : Obligations.IrqLineIsEnabledPending := by
  refine ⟨State.irq_iff, fun s t _ hirq => ?_⟩
  by_contra hsame
  simp only [not_or, not_not] at hsame
  obtain ⟨hen, hpend⟩ := hsame
  exact hirq (by rw [Bool.eq_iff_iff, t.irq_iff, s.irq_iff, hen, hpend])

/-- R26: before the tag is complete the TAG view is zero, whatever V is. -/
theorem State.tagView_of_not_tagrdy (s : State) (h : s.absPhase ≠ .tagrdy) : s.tagView = 0 :=
  if_neg fun hv => h (s.tagValid_iff.mp hv)

/-- R22, R26, R30: a host read depends on the block only through the readable registers, the TAG view and the
fields of STATUS. -/
theorem busRead_congr (off : BitVec 8) (s t : State) (hstatus : t.status = s.status)
    (htag : t.tagView = s.tagView) (hcause : t.cause = s.cause) (hen : t.irqEn = s.irqEn)
    (hpend : t.irqPend = s.irqPend) (hdin : t.din = s.din) (hdout : t.dout = s.dout)
    (htagin : t.tagin = s.tagin) : busRead off t = busRead off s := by
  unfold busRead State.errWord
  rw [hstatus, htag, hcause, hen, hpend, hdin, hdout, htagin]

/-- Settles O36: none of the three secrets is among what a read depends on. -/
theorem secretsAreNotReadable : Obligations.SecretsAreNotReadable := by
  intro s off x q q'
  refine ⟨busRead_congr off _ _ rfl rfl rfl rfl rfl rfl rfl rfl, fun hph => ?regV,
    busRead_congr off _ _ rfl rfl rfl rfl rfl rfl rfl rfl⟩
  case regV =>
    have hview : ({ s with regV := x } : State).tagView = s.tagView :=
      (State.tagView_of_not_tagrdy { s with regV := x } hph).trans (s.tagView_of_not_tagrdy hph).symm
    exact busRead_congr off _ _ rfl hview rfl rfl rfl rfl rfl rfl

end Sys2Proof.Machine
end

section
/-! Where each command completes and with what state, 40_absorb.md R110 and R111, 41_keystream.md R132 to R134,
42_control.md R150 and R151; and where its phases or a missing key reject it, 60_exceptions.md R187. -/

namespace Sys2Proof.Machine

/-- R110: with a key INIT completes. -/
theorem exec_init_complete (adp ptp : Bool) (s : State) (hk : s.keyReady = true) :
    exec (.init adp ptp) s = .next (initEffect adp ptp s).completeCmd :=
  runCommand_complete _ _ _ _ s rfl rfl fun _ => hk

/-- R111: in its segment's phase an ABS of legal length completes. -/
theorem exec_abs_complete (seg : Segment) (fin : Bool) (len : Nat) (s : State)
    (hl : lenLegal fin len = true) (hp : s.absPhase = if seg = .pt then .pt else .ad)
    (hk : s.keyReady = true) :
    exec (.abs seg fin len) s = .next (absEffect fin len s).completeCmd :=
  runCommand_complete _ _ _ _ s hl (decide_eq_true (hp.trans (segPhase_eq seg).symm)) fun _ => hk

/-- R132: the phases in which KSEED is legal. -/
theorem State.kseedLegal_iff (s : State) (src : SeedSource) :
    s.kseedLegal src = true ↔ s.ksPhase ≠ .krun ∧ (src = .tagin ∨ s.absPhase = .tagrdy) := by
  simp [State.kseedLegal]

/-- R132: KSEED completes where it is legal, with or without a key. -/
theorem exec_kseed_complete (src : SeedSource) (s : State) (hks : s.ksPhase ≠ .krun)
    (hsrc : src = .tagin ∨ s.absPhase = .tagrdy) :
    exec (.kseed src) s = .next (kseedEffect src s).completeCmd :=
  runCommand_complete _ _ _ _ s rfl ((s.kseedLegal_iff src).mpr ⟨hks, hsrc⟩) nofun

/-- R150: in TAGRDY VERIFY completes, with or without a key. -/
theorem exec_verify_complete (s : State) (hp : s.absPhase = .tagrdy) :
    exec .verify s = .next (verifyEffect s).completeCmd :=
  runCommand_complete _ _ _ _ s rfl (decide_eq_true hp) nofun

/-- Settles O11: the completion, with INIT's effect written out. -/
theorem initStartsAbsorption : Obligations.InitStartsAbsorption :=
  fun adp ptp s hk => exec_init_complete adp ptp s hk

/-- Settles O12: the block absorbed is the snapshot's. -/
theorem absChainsFullBlock : Obligations.AbsChainsFullBlock := by
  intro seg s q hk hp hph
  rw [exec_abs_complete seg false 16 s rfl hph hk, absEffect, s.snapDin_of_pend q hp]
  rfl

/-- R27, R111: the phase after a final block, from any phase. -/
theorem phaseAfterFinal_eq (phase : AbsPhase) (ptp : Bool) :
    phaseAfterFinal phase ptp = if phase = .ad ∧ ptp = true then .pt else .tagrdy := by
  cases phase <;> cases ptp <;> rfl

/-- R84: a final block has any length from 1 to 16. -/
theorem lenLegal_final (r : Nat) (h1 : 1 ≤ r) (h16 : r ≤ 16) : lenLegal true r = true :=
  (lenLegal_iff true r).mpr ⟨h1, h16, .inl rfl⟩

/-- Settles O13: the final block is the snapshot's, and the next phase is R27's. -/
theorem absFinishesSegment : Obligations.AbsFinishesSegment := by
  intro seg r s q h1 h16 hk hp hph
  rw [exec_abs_complete seg true r s (lenLegal_final r h1 h16) hph hk, absEffect,
    s.snapDin_of_pend q hp, phaseAfterFinal_eq]
  rfl

/-- Settles O14: the seed is V, or TAGIN as it was when the command was accepted. -/
theorem kseedLoadsSeed : Obligations.KseedLoadsSeed := by
  constructor
  · intro s hks hph
    exact exec_kseed_complete .tag s hks (.inr hph)
  · intro s q hks hp
    rw [exec_kseed_complete .tagin s hks (.inl rfl), kseedEffect, State.seed, s.snapTagin_of_pend q hp]
    rfl

/-- Settles O15: DOUT is the truncated block, whose bytes are those of the XOR below R. -/
theorem ksAppliesKeystream : Obligations.KsAppliesKeystream := by
  intro fin r s q h1 h16 hfin hk hp hks
  refine ⟨(keystreamStep fin r s).completeCmd,
    exec_streamCmd false fin r s ((lenLegal_iff fin r).mpr ⟨h1, h16, hfin⟩) hks nofun hk, ?state, ?bytes⟩
  case state =>
    rw [← hks]
    rfl
  case bytes =>
    intro i hi
    rw [State.completeCmd_dout, keystreamStep, blockByte_truncBlock _ r i hi, blockByte_xor,
      s.snapDin_of_pend q hp]

/-- Settles O16: a full block is not truncated, so what is put out is what is absorbed. -/
theorem ksabsChainsFullBlock : Obligations.KsabsChainsFullBlock := by
  intro s q hk hp hks hph
  refine (exec_streamCmd true false 16 s rfl hks (fun _ => hph) hk).trans ?_
  rw [← truncBlock_full (q.din ^^^ Config.E s.regS), ← s.snapDin_of_pend q hp]
  rfl

/-- Settles O17: the completion, with the snapshot's block for `din`. -/
theorem ksabsFinishesBoth : Obligations.KsabsFinishesBoth := by
  intro r s q h1 h16 hk hp hks hph
  refine (exec_streamCmd true true r s (lenLegal_final r h1 h16) hks (fun _ => hph) hk).trans ?_
  rw [← s.snapDin_of_pend q hp]
  rfl

/-- R150: equal tags. -/
theorem verifyEffect_of_eq (s : State) (h : s.regV = s.snapTagin) :
    verifyEffect s = { s with auth := .ok } :=
  if_pos ((tagDifference_eq_zero _ _).mpr h)

/-- R150: tags that differ. -/
theorem verifyEffect_of_ne (s : State) (h : s.regV ≠ s.snapTagin) :
    verifyEffect s = { s with auth := .fail, dout := 0, irqPend := s.irqPend ||| irqAuthFail } :=
  if_neg fun hd => h ((tagDifference_eq_zero _ _).mp hd)

/-- R196: AUTHFAIL and then DONE. -/
theorem or_irqAuthFail_or_irqDone (x : BitVec 3) : x ||| irqAuthFail ||| irqDone = x ||| 5 :=
  BitVec.or_assoc x irqAuthFail irqDone

/-- Settles O18: the comparison finds equality exactly when the sixteen bytes agree. -/
theorem verifyComparesTags : Obligations.VerifyComparesTags := by
  intro s q hp hph
  rw [exec_verify_complete s hph]
  refine ⟨fun hsame => ?ok, fun i hi hdiff => ?fail⟩
  case ok =>
    rw [verifyEffect_of_eq s ((block_ext_bytes _ _ hsame).trans (s.snapTagin_of_pend q hp).symm)]
    rfl
  case fail =>
    have hne : s.regV ≠ s.snapTagin := by
      rw [s.snapTagin_of_pend q hp]
      exact fun heq => hdiff (congrArg (blockByte · i) heq)
    rw [verifyEffect_of_ne s hne, ← or_irqAuthFail_or_irqDone]
    rfl

/-- R35, R151: after CLEAR only KEY_READY is left of STATUS. -/
theorem State.clearBlock_status (s : State) :
    s.clearBlock.status = if s.keyReady then 0x00000800 else 0 := by
  have hbusy : s.clearBlock.busy = false := rfl
  have htag : s.clearBlock.tagValid = false := rfl
  simp only [State.status, hbusy, htag, State.clearBlock_errf, State.clearBlock_auth,
    State.clearBlock_absPhase, State.clearBlock_ksPhase, State.clearBlock_adp, State.clearBlock_ptp,
    State.clearBlock_keyReady]
  cases s.keyReady <;> decide

/-- Settles O19: CLEAR's state field by field, and its STATUS word. -/
theorem clearZeroisesBlock : Obligations.ClearZeroisesBlock :=
  fun s => ⟨s.clearBlock, exec_clear s, rfl, s.clearBlock_status, rfl, rfl⟩

/-- R187: a command of legal length that its phases forbid is rejected, whatever KEY_READY. -/
theorem runCommand_sequence (lenOk seqOk needsKey : Bool) (effect : State → State) (s : State)
    (hl : lenOk = true) (hs : seqOk = false) :
    runCommand lenOk seqOk needsKey effect s = .next (s.rejectCmd .sequence) := by
  subst hl hs
  rfl

/-- R187: a command that calls the cipher and passes its other checks is rejected without a key. -/
theorem runCommand_noKey (lenOk seqOk : Bool) (effect : State → State) (s : State)
    (hl : lenOk = true) (hs : seqOk = true) (hk : s.keyReady = false) :
    runCommand lenOk seqOk true effect s = .next (s.rejectCmd .noKey) := by
  subst hl hs
  simp [runCommand, hk]

/-- R187: the phases in which KSABS is legal. -/
theorem State.ksabsLegal_iff (s : State) :
    s.ksabsLegal = true ↔ s.ksPhase = .krun ∧ s.absPhase = .pt := by
  simp [State.ksabsLegal]

/-- Settles O21: in each case the phase check of the command fails. -/
theorem wrongPhaseIsSequence : Obligations.WrongPhaseIsSequence := by
  intro s i hf hi
  rw [← s.rejectCmd_eq .sequence hf]
  rcases hi with ⟨seg, fin, r, rfl, hl, hph⟩ | ⟨src, rfl, hph⟩ | ⟨fin, r, rfl, hl, hph⟩
    | ⟨fin, r, rfl, hl, hph⟩ | ⟨rfl, hph⟩
  · rw [← segPhase_eq] at hph
    exact runCommand_sequence _ _ _ _ s hl (decide_eq_false hph)
  · refine runCommand_sequence _ _ _ _ s rfl (Bool.eq_false_iff.mpr fun hlegal => ?_)
    obtain ⟨hks, hsrc⟩ := (s.kseedLegal_iff src).mp hlegal
    rcases hph with hrun | ⟨rfl, hph⟩
    · exact hks hrun
    · exact hph (hsrc.resolve_left nofun)
  · exact runCommand_sequence _ _ _ _ s hl (decide_eq_false hph)
  · refine runCommand_sequence _ _ _ _ s hl (Bool.eq_false_iff.mpr fun hlegal => ?_)
    obtain ⟨hks, hpt⟩ := s.ksabsLegal_iff.mp hlegal
    exact hph.elim (absurd hks) (absurd hpt)
  · exact runCommand_sequence _ _ _ _ s rfl (decide_eq_false hph)

/-- Settles O22: in each case the length and the phases pass, and the check of the key is the last. -/
theorem missingKeyIsNoKey : Obligations.MissingKeyIsNoKey := by
  intro s i hf hk hi
  rw [← s.rejectCmd_eq .noKey hf]
  rcases hi with ⟨a, p, rfl⟩ | ⟨seg, fin, r, rfl, hl, hph⟩ | ⟨fin, r, rfl, hl, hks⟩
    | ⟨fin, r, rfl, hl, hks, hph⟩
  · exact runCommand_noKey _ _ _ s rfl rfl hk
  · rw [← segPhase_eq] at hph
    exact runCommand_noKey _ _ _ s hl (decide_eq_true hph) hk
  · exact runCommand_noKey _ _ _ s hl (decide_eq_true hks) hk
  · exact runCommand_noKey _ _ _ s hl (s.ksabsLegal_iff.mpr ⟨hks, hph⟩) hk

end Sys2Proof.Machine
end

section
/-! The byte lanes of the block registers, 20_memory.md R53: a word is its four bytes, and a block its four
words. -/

namespace Sys2Proof.Machine

/-- R53: a word is its four bytes. -/
theorem word_ext_bytes (v w : Word) (h : ∀ j, j < 4 → wordByte v j = wordByte w j) : v = w := by
  apply BitVec.eq_of_getLsbD_eq
  intro k hk
  have hb := congrArg (BitVec.getLsbD · (k % 8)) (h (k / 8) (by omega))
  simpa [wordByte, Nat.mod_lt k (by omega : 0 < 8), Nat.div_add_mod] using hb

/-- R53: a word of a block after a write of one of its words. -/
theorem blockWord_setBlockWord (x : Block) (k k' : Nat) (v : Word) (hk' : k' < 4) :
    blockWord (setBlockWord x k v) k' = if k' = k then v else blockWord x k' := by
  refine word_ext_bytes _ _ fun j hj => ?_
  rw [wordByte_blockWord _ k' j hj, blockByte_setBlockWord x k v _ (by omega),
    show (4 * k' + j) / 4 = k' by omega, show (4 * k' + j) % 4 = j by omega]
  split_ifs
  · rfl
  · exact (wordByte_blockWord x k' j hj).symm

/-- Settles O33: byte `i` of a block is byte `i % 4` of its word `i / 4`, in both directions. -/
theorem byteLanesAreLittleEndian : Obligations.ByteLanesAreLittleEndian := by
  refine ⟨fun x k j _ hj => wordByte_blockWord x k j hj, fun x y h => ?words, fun x k v hk => ⟨?same, ?other⟩⟩
  case words =>
    refine block_ext_bytes x y fun i hi => ?_
    have hb := congrArg (wordByte · (i % 4)) (h (i / 4) (by omega))
    simpa only [wordByte_blockWord _ _ _ (Nat.mod_lt i (by omega : 0 < 4)), Nat.div_add_mod] using hb
  case same => rw [blockWord_setBlockWord x k k v hk, if_pos rfl]
  case other =>
    intro k' hk' hne
    rw [blockWord_setBlockWord x k k' v hk', if_neg hne]

end Sys2Proof.Machine
end

section
/-! The golden functions as their own pseudocode, 40_absorb.md R104 and 41_keystream.md R130, and the round trip of
45_host_protocol.md R177: OFB undoes itself under the same seed. -/

namespace Sys2Proof.Machine

/-- R104, R130: at most 16 bytes are the final block alone. -/
theorem fullBlocks_of_le (len : Nat) (h : len ≤ 16) : fullBlocks len = 0 := by
  unfold fullBlocks
  omega

/-- R104, R130: of more than 16 bytes one full block is taken, and the rest is split in the same way. -/
theorem fullBlocks_of_gt (len : Nat) (h : 16 < len) : fullBlocks len = fullBlocks (len - 16) + 1 := by
  unfold fullBlocks
  omega

theorem absorb_of_le (E : Block → Block) (seg : List Byte) (v : Block) (h : seg.length ≤ 16) :
    absorb E seg v = E (dblBlock (v ^^^ padBlock (blockOfBytes seg) seg.length)) := by
  rw [absorb, fullBlocks_of_le _ h, absorbLoop]

theorem absorb_of_gt (E : Block → Block) (seg : List Byte) (v : Block) (h : 16 < seg.length) :
    absorb E seg v = absorb E (seg.drop 16) (E (v ^^^ blockOfBytes (seg.take 16))) := by
  rw [absorb, fullBlocks_of_gt _ h, absorbLoop, absorb, List.length_drop]

theorem ofb_nil (E : Block → Block) (k : Block) : ofb E k [] = ([], k) := rfl

theorem ofb_of_ne_nil (E : Block → Block) (k : Block) (buf : List Byte) (h : buf ≠ []) :
    ofb E k buf = ofbLoop E (fullBlocks buf.length) buf k :=
  if_pos ((present_iff buf).mpr h)

theorem ofb_of_le (E : Block → Block) (k : Block) (buf : List Byte) (hb : buf ≠ [])
    (h : buf.length ≤ 16) : ofb E k buf = (xorBytes buf (E k), E k) := by
  rw [ofb_of_ne_nil E k buf hb, fullBlocks_of_le _ h, ofbLoop]

theorem ofb_of_gt (E : Block → Block) (k : Block) (buf : List Byte) (h : 16 < buf.length) :
    ofb E k buf = (xorBytes (buf.take 16) (E k) ++ (ofb E (E k) (buf.drop 16)).1,
      (ofb E (E k) (buf.drop 16)).2) := by
  have hb : buf ≠ [] := List.length_pos_iff.mp (by omega)
  have hrest : buf.drop 16 ≠ [] := List.length_pos_iff.mp (by rw [List.length_drop]; omega)
  rw [ofb_of_ne_nil E k buf hb, ofb_of_ne_nil E _ _ hrest, fullBlocks_of_gt _ h, List.length_drop,
    ofbLoop]

/-- Settles O43: the number of full blocks counts the turns of `while L - off > 16`. -/
theorem goldenLoopsFollowPseudocode : Obligations.GoldenLoopsFollowPseudocode := by
  refine ⟨fun E seg v _ => ?absorb, ofb_nil, fun E buf k hb => ?ofb⟩
  case absorb =>
    split_ifs with h
    · exact absorb_of_gt E seg v h
    · exact absorb_of_le E seg v (Nat.not_lt.mp h)
  case ofb =>
    split_ifs with h
    · exact ofb_of_gt E k buf h
    · exact ofb_of_le E k buf hb (Nat.not_lt.mp h)

/-- R130: the bytes XORed with the same block twice. -/
theorem xorBytes_xorBytes (bytes : List Byte) (k : Block) (h : bytes.length ≤ 16) :
    xorBytes (xorBytes bytes k) k = bytes := by
  have hlen := length_xorBytes bytes k h
  refine List.ext_getElem ((length_xorBytes _ k (by omega)).trans hlen) fun i hi hb => ?_
  rw [getElem_xorBytes _ k i hi (by omega) (by omega), getElem_xorBytes bytes k i _ hb (by omega),
    BitVec.xor_assoc, BitVec.xor_self, BitVec.xor_zero]

/-- R130: the keystream does not depend on the bytes it is applied to, so block by block it cancels. -/
theorem ofbLoop_ofbLoop (E : Block → Block) (n : Nat) (buf : List Byte) (k : Block)
    (hlo : 16 * n < buf.length) (hhi : buf.length ≤ 16 * n + 16) :
    (ofbLoop E n (ofbLoop E n buf k).1 k).1 = buf := by
  induction n generalizing buf k with
  | zero => exact xorBytes_xorBytes buf (E k) (by omega)
  | succ n ih =>
    have htake : (buf.take 16).length = 16 := List.length_take_of_le (by omega)
    have hdrop : (buf.drop 16).length = buf.length - 16 := List.length_drop
    have hxor := (length_xorBytes _ (E k) htake.le).trans htake
    calc (ofbLoop E (n + 1) (ofbLoop E (n + 1) buf k).1 k).1
        = xorBytes (xorBytes (buf.take 16) (E k)) (E k)
            ++ (ofbLoop E n (ofbLoop E n (buf.drop 16) (E k)).1 (E k)).1 := by
          simp only [ofbLoop, List.take_left' hxor, List.drop_left' hxor]
      _ = buf.take 16 ++ buf.drop 16 := by
          rw [xorBytes_xorBytes _ _ htake.le, ih _ _ (by omega) (by omega)]
      _ = buf := List.take_append_drop 16 buf

/-- R177: OFB undoes itself. -/
theorem ofb_ofb (E : Block → Block) (k : Block) (buf : List Byte) :
    (ofb E k (ofb E k buf).1).1 = buf := by
  have hlen := length_ofb E k buf
  by_cases hb : buf = []
  · subst hb
    rfl
  · have hpos : 0 < buf.length := List.length_pos_iff.mpr hb
    have hb' : (ofb E k buf).1 ≠ [] := List.length_pos_iff.mp (by omega)
    rw [ofb_of_ne_nil E k _ hb', hlen, ofb_of_ne_nil E k buf hb]
    exact ofbLoop_ofbLoop E _ buf k (by unfold fullBlocks; omega) (by unfold fullBlocks; omega)

/-- R130, R171: an absent ciphertext needs no case of its own, since OFB of an empty buffer is empty. -/
theorem candidate_eq_ofb (E : Block → Block) (ct : List Byte) (t : Block) :
    candidate E ct t = (ofb E t ct).1 := by
  by_cases hc : present ct = true
  · rw [candidate, if_pos hc]
  · rw [candidate, ofb, if_neg hc, if_neg hc]

/-- R171, R177: from the ciphertext and the tag Decrypt recovers the plaintext. -/
theorem candidate_encrypt (E : Block → Block) (ad pt : List Byte) :
    candidate E (encrypt E ad pt).1 (encrypt E ad pt).2 = pt := by
  rw [encrypt_ciphertext, candidate_eq_ofb]
  exact ofb_ofb E (mac E ad pt) pt

/-- Settles O50: the recovered plaintext has the tag that Encrypt made of it. -/
theorem decryptUndoesEncrypt : Obligations.DecryptUndoesEncrypt := by
  intro E ad pt
  have htag : mac E ad pt = (encrypt E ad pt).2 := rfl
  refine ⟨?_, length_encrypt E ad pt⟩
  simp only [decrypt, candidate_encrypt, if_pos htag]

end Sys2Proof.Machine
end

section
/-! What a step can change, 10_state.md sections 2, 3 and 6, 60_exceptions.md R192 and R196,
70_reset_and_hazards.md R224: the two engines' registers change by an executed command, CLEAR and reset alone, and
each rule about them is a case analysis of the commands. -/

namespace Sys2Proof.Machine

/-- V, S, DOUT and the two phases are as they were. -/
structure State.SameEngines (s t : State) : Prop where
  regV : t.regV = s.regV
  regS : t.regS = s.regS
  dout : t.dout = s.dout
  absPhase : t.absPhase = s.absPhase
  ksPhase : t.ksPhase = s.ksPhase

/-- A step keeps the engines' registers, executes a command in the engine step, executes CLEAR, or is reset. -/
inductive EngineStepResult (s : State) : State → Prop where
  | same (t : State) (h : s.SameEngines t) : EngineStepResult s t
  | executed (i : Instr) (t : State) (hx : s.executes = some i) (hi : i ≠ .clear)
      (hr : ExecResult s.advance i t) : EngineStepResult s t
  | clear (hx : s.executes = some .clear) : EngineStepResult s s.advance.clearBlock
  | reset (hs : s.schedule.head? = some .reset) : EngineStepResult s s.advance.resetBlock

theorem step_engines (s t : State) (h : step s = .next t) : EngineStepResult s t := by
  cases step_result s t h with
  | executed q i t he hp hf hd hi hx hr => exact .executed i t hx hi hr
  | write off v rest t hs hr =>
    cases hr with
    | clear hcmd hv =>
      subst hv
      exact .clear (executes_of_clear_write s off rest hs hcmd)
    | ignored | busy | accept | irqEn | irqPend | din | tagin =>
      exact .same _ ⟨rfl, rfl, rfl, rfl, rfl⟩
  | reset rest hs => exact .reset (by rw [hs]; rfl)
  | engineIdle | discarded | illegal | read | elsewhere | keyReady =>
    exact .same _ ⟨rfl, rfl, rfl, rfl, rfl⟩

/-! R150: what VERIFY leaves alone. -/

@[simp] theorem verifyEffect_regV (s : State) : (verifyEffect s).regV = s.regV := by
  unfold verifyEffect
  split_ifs <;> rfl
@[simp] theorem verifyEffect_regS (s : State) : (verifyEffect s).regS = s.regS := by
  unfold verifyEffect
  split_ifs <;> rfl
@[simp] theorem verifyEffect_din (s : State) : (verifyEffect s).din = s.din := by
  unfold verifyEffect
  split_ifs <;> rfl
@[simp] theorem verifyEffect_tagin (s : State) : (verifyEffect s).tagin = s.tagin := by
  unfold verifyEffect
  split_ifs <;> rfl
@[simp] theorem verifyEffect_absPhase (s : State) : (verifyEffect s).absPhase = s.absPhase := by
  unfold verifyEffect
  split_ifs <;> rfl
@[simp] theorem verifyEffect_ksPhase (s : State) : (verifyEffect s).ksPhase = s.ksPhase := by
  unfold verifyEffect
  split_ifs <;> rfl
@[simp] theorem verifyEffect_ptp (s : State) : (verifyEffect s).ptp = s.ptp := by
  unfold verifyEffect
  split_ifs <;> rfl
@[simp] theorem verifyEffect_keyReady (s : State) : (verifyEffect s).keyReady = s.keyReady := by
  unfold verifyEffect
  split_ifs <;> rfl

/-- R27: the commands that change ABS_PHASE, each with its transition. -/
theorem ExecResult.absPhase_change {s t : State} {i : Instr} (h : ExecResult s i t) (hi : i ≠ .clear)
    (hne : t.absPhase ≠ s.absPhase) :
    (∃ a p, i = .init a p ∧ t.absPhase = if a then .ad else if p then .pt else .tagrdy)
      ∨ (∃ r, i = .abs .ad true r ∧ s.absPhase = .ad ∧ t.absPhase = if s.ptp then .pt else .tagrdy)
      ∨ (∃ r, i = .abs .pt true r ∧ s.absPhase = .pt ∧ t.absPhase = .tagrdy)
      ∨ (∃ r, i = .ksabs true r ∧ s.absPhase = .pt ∧ t.absPhase = .tagrdy) := by
  cases h with
  | init adp ptp => exact .inl ⟨adp, ptp, rfl, rfl⟩
  | abs seg fin len hl hp =>
    cases fin with
    | false => exact absurd rfl hne
    | true =>
      have hnext : (absEffect true len s).absPhase = phaseAfterFinal (segPhase seg) s.ptp := by
        rw [← hp]
        rfl
      cases seg with
      | ad => exact .inr (.inl ⟨len, rfl, hp, hnext⟩)
      | pt => exact .inr (.inr (.inl ⟨len, rfl, hp, hnext⟩))
  | ksabs fin len hl hp ha =>
    cases fin with
    | false => exact absurd rfl hne
    | true => exact .inr (.inr (.inr ⟨len, rfl, ha, rfl⟩))
  | verify => exact absurd (verifyEffect_absPhase s) hne
  | clear => exact absurd rfl hi
  | rejected | kseed | ks => exact absurd rfl hne

/-- R28: the commands that change KS_PHASE, each with its transition. -/
theorem ExecResult.ksPhase_change {s t : State} {i : Instr} (h : ExecResult s i t) (hi : i ≠ .clear)
    (hne : t.ksPhase ≠ s.ksPhase) :
    (∃ c, i = .kseed c ∧ t.ksPhase = .krun)
      ∨ (∃ r, (i = .ks true r ∨ i = .ksabs true r) ∧ s.ksPhase = .krun ∧ t.ksPhase = .kdone) := by
  cases h with
  | kseed src => exact .inl ⟨src, rfl, rfl⟩
  | ks fin len hl hp =>
    cases fin with
    | false => exact absurd rfl hne
    | true => exact .inr ⟨len, .inl rfl, hp, rfl⟩
  | ksabs fin len hl hp =>
    cases fin with
    | false => exact absurd rfl hne
    | true => exact .inr ⟨len, .inr rfl, hp, rfl⟩
  | verify => exact absurd (verifyEffect_ksPhase s) hne
  | clear => exact absurd rfl hi
  | rejected | init | abs => exact absurd rfl hne

/-- Settles O57: the transitions of the commands, and the idle phases of CLEAR and reset. -/
theorem phasesMoveAsListed : Obligations.PhasesMoveAsListed := by
  constructor
  · intro s t h hne
    cases step_engines s t h with
    | same _ hsame => exact absurd hsame.absPhase hne
    | executed i _ hx hi hr =>
      rcases hr.absPhase_change hi hne with
        ⟨a, p, rfl, hn⟩ | ⟨r, rfl, hp, hn⟩ | ⟨r, rfl, hp, hn⟩ | ⟨r, rfl, hp, hn⟩
      · exact .inl ⟨a, p, hx, hn⟩
      · exact .inr (.inl ⟨r, hx, hp, hn⟩)
      · exact .inr (.inr (.inl ⟨r, hx, hp, hn⟩))
      · exact .inr (.inr (.inr (.inl ⟨r, hx, hp, hn⟩)))
    | clear hx => exact .inr (.inr (.inr (.inr ⟨.inl hx, rfl⟩)))
    | reset hs => exact .inr (.inr (.inr (.inr ⟨.inr hs, rfl⟩)))
  · intro s t h hne
    cases step_engines s t h with
    | same _ hsame => exact absurd hsame.ksPhase hne
    | executed i _ hx hi hr =>
      rcases hr.ksPhase_change hi hne with ⟨c, rfl, hn⟩ | ⟨r, rfl | rfl, hp, hn⟩
      · exact .inl ⟨c, hx, hn⟩
      · exact .inr (.inl ⟨r, .inl hx, hp, hn⟩)
      · exact .inr (.inl ⟨r, .inr hx, hp, hn⟩)
    | clear hx => exact .inr (.inr ⟨.inl hx, rfl⟩)
    | reset hs => exact .inr (.inr ⟨.inr hs, rfl⟩)

/-- Settles O53: of the listed transitions only INIT's starts in IDLE and ends elsewhere. -/
theorem onlyInitLeavesIdle : Obligations.OnlyInitLeavesIdle := by
  intro s t h hs ht
  obtain ⟨hmoves, -⟩ := phasesMoveAsListed
  rcases hmoves s t h (hs ▸ ht) with
    ⟨a, p, hx, -⟩ | ⟨r, -, hp, -⟩ | ⟨r, -, hp, -⟩ | ⟨r, -, hp, -⟩ | ⟨-, hidle⟩
  · exact ⟨a, p, hx⟩
  · exact absurd (hs.symm.trans hp) nofun
  · exact absurd (hs.symm.trans hp) nofun
  · exact absurd (hs.symm.trans hp) nofun
  · exact absurd hidle ht

/-- R21: the commands that change V. -/
theorem ExecResult.regV_change {s t : State} {i : Instr} (h : ExecResult s i t) (hi : i ≠ .clear)
    (hne : t.regV ≠ s.regV) :
    (∃ a p, i = .init a p) ∨ (∃ g f r, i = .abs g f r ∧ s.absPhase = segPhase g)
      ∨ (∃ f r, i = .ksabs f r ∧ s.absPhase = .pt) := by
  cases h with
  | init adp ptp => exact .inl ⟨adp, ptp, rfl⟩
  | abs seg fin len hl hp => exact .inr (.inl ⟨seg, fin, len, rfl, hp⟩)
  | ksabs fin len hl hp ha => exact .inr (.inr ⟨fin, len, rfl, ha⟩)
  | verify => exact absurd (verifyEffect_regV s) hne
  | clear => exact absurd rfl hi
  | rejected | kseed | ks => exact absurd rfl hne

/-- R22: the commands that change S. -/
theorem ExecResult.regS_change {s t : State} {i : Instr} (h : ExecResult s i t) (hi : i ≠ .clear)
    (hne : t.regS ≠ s.regS) :
    (∃ c, i = .kseed c) ∨ (∃ f r, i = .ks f r) ∨ (∃ f r, i = .ksabs f r) := by
  cases h with
  | kseed src => exact .inl ⟨src, rfl⟩
  | ks fin len => exact .inr (.inl ⟨fin, len, rfl⟩)
  | ksabs fin len => exact .inr (.inr ⟨fin, len, rfl⟩)
  | verify => exact absurd (verifyEffect_regS s) hne
  | clear => exact absurd rfl hi
  | rejected | init | abs => exact absurd rfl hne

/-- R24: the commands that change DOUT. -/
theorem ExecResult.dout_change {s t : State} {i : Instr} (h : ExecResult s i t) (hi : i ≠ .clear)
    (hne : t.dout ≠ s.dout) :
    (∃ c, i = .kseed c) ∨ (∃ f r, i = .ks f r) ∨ (∃ f r, i = .ksabs f r)
      ∨ (i = .verify ∧ t.auth = .fail) := by
  cases h with
  | kseed src => exact .inl ⟨src, rfl⟩
  | ks fin len => exact .inr (.inl ⟨fin, len, rfl⟩)
  | ksabs fin len => exact .inr (.inr (.inl ⟨fin, len, rfl⟩))
  | verify =>
    by_cases htag : s.regV = s.snapTagin
    · rw [verifyEffect_of_eq s htag] at hne
      exact absurd rfl hne
    · rw [verifyEffect_of_ne s htag]
      exact .inr (.inr (.inr ⟨rfl, rfl⟩))
  | clear => exact absurd rfl hi
  | rejected | init | abs => exact absurd rfl hne

/-- R26: the TAG view is a function of ABS_PHASE and V. -/
theorem State.tagView_congr {s t : State} (hp : t.absPhase = s.absPhase) (hv : t.regV = s.regV) :
    t.tagView = s.tagView := by
  unfold State.tagView State.tagValid
  rw [hp, hv]

/-- R26, R27: once the tag is complete, INIT alone of the commands of the engine step changes TAGRDY or V. -/
theorem ExecResult.init_of_tag_change {s t : State} {i : Instr} (h : ExecResult s i t)
    (hi : i ≠ .clear) (hp : s.absPhase = .tagrdy)
    (hne : t.absPhase ≠ s.absPhase ∨ t.regV ≠ s.regV) : ∃ a p, i = .init a p := by
  rcases hne with hne | hne
  · rcases h.absPhase_change hi hne with ⟨a, p, hinit, -⟩ | ⟨r, -, ha, -⟩ | ⟨r, -, ha, -⟩ | ⟨r, -, ha, -⟩
    · exact ⟨a, p, hinit⟩
    all_goals exact absurd (hp.symm.trans ha) nofun
  · rcases h.regV_change hi hne with hinit | ⟨g, f, r, -, ha⟩ | ⟨f, r, -, ha⟩
    · exact hinit
    · exact absurd (ha.symm.trans hp) (segPhase_ne_tagrdy g)
    · exact absurd (hp.symm.trans ha) nofun

/-- Settles O54: the commands that change V, and those that change anything of a finished tag. -/
theorem onlyAbsorptionChangesV : Obligations.OnlyAbsorptionChangesV := by
  constructor
  · intro s t h hne
    cases step_engines s t h with
    | same _ hsame => exact absurd hsame.regV hne
    | executed i _ hx hi hr =>
      rcases hr.regV_change hi hne with ⟨a, p, rfl⟩ | ⟨g, f, r, rfl, -⟩ | ⟨f, r, rfl, -⟩
      · exact .inl ⟨a, p, hx⟩
      · exact .inr (.inl ⟨g, f, r, hx⟩)
      · exact .inr (.inr (.inl ⟨f, r, hx⟩))
    | clear hx => exact .inr (.inr (.inr (.inl hx)))
    | reset hs => exact .inr (.inr (.inr (.inr hs)))
  · intro s t h hp hne
    have hchange : t.absPhase ≠ s.absPhase ∨ t.regV ≠ s.regV := by
      by_contra hsame
      simp only [not_or, not_not] at hsame
      obtain ⟨hph, hv⟩ := hsame
      rcases hne with hne | hne | hne
      · exact hne (hph.trans hp)
      · exact hne hv
      · exact hne (State.tagView_congr hph hv)
    cases step_engines s t h with
    | same _ hsame => exact hchange.elim (absurd hsame.absPhase) (absurd hsame.regV)
    | executed i _ hx hi hr =>
      obtain ⟨a, p, rfl⟩ := hr.init_of_tag_change hi hp hchange
      exact .inl ⟨a, p, hx⟩
    | clear hx => exact .inr (.inl hx)
    | reset hs => exact .inr (.inr hs)

/-- Settles O55: the commands that change S. -/
theorem onlyKeystreamChangesS : Obligations.OnlyKeystreamChangesS := by
  intro s t h hne
  cases step_engines s t h with
  | same _ hsame => exact absurd hsame.regS hne
  | executed i _ hx hi hr =>
    rcases hr.regS_change hi hne with ⟨c, rfl⟩ | ⟨f, r, rfl⟩ | ⟨f, r, rfl⟩
    · exact .inl ⟨c, hx⟩
    · exact .inr (.inl ⟨f, r, hx⟩)
    · exact .inr (.inr (.inl ⟨f, r, hx⟩))
  | clear hx => exact .inr (.inr (.inr (.inl hx)))
  | reset hs => exact .inr (.inr (.inr (.inr hs)))

/-- R23, R25: no command of the engine step writes DIN or TAGIN. -/
theorem ExecResult.inputs {s t : State} {i : Instr} (h : ExecResult s i t) (hi : i ≠ .clear) :
    t.din = s.din ∧ t.tagin = s.tagin := by
  cases h with
  | verify => exact ⟨verifyEffect_din s, verifyEffect_tagin s⟩
  | clear => exact absurd rfl hi
  | rejected | init | abs | kseed | ks | ksabs => exact ⟨rfl, rfl⟩

/-- R23, R25: a step changes DIN or TAGIN only by a host write that reaches a word of it, by CLEAR or by reset. -/
theorem step_inputs (s t : State) (h : step s = .next t) :
    ((t.din = s.din ∨ ∃ off v k, s.schedule.head? = some (.write (.block off) 4 v)
          ∧ registerAt off = .din k)
        ∧ (t.tagin = s.tagin ∨ ∃ off v k, s.schedule.head? = some (.write (.block off) 4 v)
          ∧ registerAt off = .tagin k))
      ∨ s.executes = some .clear ∨ s.schedule.head? = some .reset := by
  cases step_result s t h with
  | executed q i t he hp hf hd hi hx hr =>
    obtain ⟨hdin, htagin⟩ := hr.inputs hi
    exact .inl ⟨.inl hdin, .inl htagin⟩
  | write off v rest t hs hr =>
    have hhead : s.schedule.head? = some (.write (.block off) 4 v) := by rw [hs]; rfl
    cases hr with
    | clear hcmd hv =>
      subst hv
      exact .inr (.inl (executes_of_clear_write s off rest hs hcmd))
    | din k hk => exact .inl ⟨.inr ⟨off, v, k, hhead, hk⟩, .inl rfl⟩
    | tagin k hk => exact .inl ⟨.inl rfl, .inr ⟨off, v, k, hhead, hk⟩⟩
    | ignored | busy | accept | irqEn | irqPend => exact .inl ⟨.inl rfl, .inl rfl⟩
  | reset rest hs => exact .inr (.inr (by rw [hs]; rfl))
  | engineIdle | discarded | illegal | read | elsewhere | keyReady => exact .inl ⟨.inl rfl, .inl rfl⟩

/-- Settles O56: the commands that change DOUT, and the writes that reach DIN and TAGIN. -/
theorem onlyTheseChangeDataRegisters : Obligations.OnlyTheseChangeDataRegisters := by
  refine ⟨fun s t h hne => ?dout, fun s t h hne => ?din, fun s t h hne => ?tagin⟩
  case dout =>
    cases step_engines s t h with
    | same _ hsame => exact absurd hsame.dout hne
    | executed i _ hx hi hr =>
      rcases hr.dout_change hi hne with ⟨c, rfl⟩ | ⟨f, r, rfl⟩ | ⟨f, r, rfl⟩ | ⟨rfl, hfail⟩
      · exact .inl ⟨c, hx⟩
      · exact .inr (.inl ⟨f, r, hx⟩)
      · exact .inr (.inr (.inl ⟨f, r, hx⟩))
      · exact .inr (.inr (.inr (.inl ⟨hx, hfail⟩)))
    | clear hx => exact .inr (.inr (.inr (.inr (.inl hx))))
    | reset hs => exact .inr (.inr (.inr (.inr (.inr hs))))
  case din => exact (step_inputs s t h).imp_left fun ⟨hdin, _⟩ => hdin.resolve_left hne
  case tagin => exact (step_inputs s t h).imp_left fun ⟨_, htagin⟩ => htagin.resolve_left hne

/-- Settles O24: in the error state CMD takes only CLEAR and the engine step only discards, so no step but CLEAR
and reset reaches the engines or the error's own registers. -/
theorem errorStateIsSticky : Obligations.ErrorStateIsSticky := by
  intro s hf
  refine ⟨fun off w rest hs hcmd hw => ?dropped, fun he => ?discarded, fun t h hclear hreset => ?kept⟩
  case dropped =>
    rw [step_write_block s off w rest hs, busWrite, hcmd]
    exact cmdWrite_error w s.advance hw hf
  case discarded => exact (step_of_engineNext s he).trans (engineStep_error s.advance hf)
  case kept =>
    have hnf : s.errf ≠ false := by simp [hf]
    cases step_result s t h with
    | illegal _ _ _ hf' => exact absurd hf' hnf
    | executed _ _ _ _ _ hf' => exact absurd hf' hnf
    | write off v rest t hs hr =>
      cases hr with
      | clear hcmd hv =>
        subst hv
        exact absurd (executes_of_clear_write s off rest hs hcmd) hclear
      | busy _ _ hf' => exact absurd hf' hnf
      | accept _ _ hf' => exact absurd hf' hnf
      | ignored | irqEn | irqPend | din | tagin => exact ⟨hf, rfl, rfl, rfl, rfl, rfl, rfl, rfl⟩
    | reset rest hs => exact absurd (by rw [hs]; rfl) hreset
    | engineIdle | discarded | read | elsewhere | keyReady =>
      exact ⟨hf, rfl, rfl, rfl, rfl, rfl, rfl, rfl⟩

/-- R196: the pending bits a command sets when it ends: DONE, with AUTHFAIL for a VERIFY whose tags differ, or
ERR for a rejection. -/
theorem ExecResult.irqPend {s t : State} {i : Instr} (h : ExecResult s i t) (hi : i ≠ .clear)
    (hf : s.errf = false) :
    t.irqPend = s.irqPend ||| 1 ∧ t.errf = false
      ∨ t.irqPend = s.irqPend ||| 5 ∧ t.errf = false ∧ i = .verify ∧ s.regV ≠ s.snapTagin
      ∨ t.irqPend = s.irqPend ||| 2 ∧ t.errf = true := by
  cases h with
  | rejected => exact .inr (.inr ⟨rfl, rfl⟩)
  | verify =>
    by_cases htag : s.regV = s.snapTagin
    · rw [verifyEffect_of_eq s htag]
      exact .inl ⟨rfl, hf⟩
    · rw [verifyEffect_of_ne s htag]
      exact .inr (.inl ⟨or_irqAuthFail_or_irqDone s.irqPend, hf, rfl, htag⟩)
  | clear => exact absurd rfl hi
  | init | abs | kseed | ks | ksabs => exact .inl ⟨rfl, hf⟩

/-- R158: what the engine step does outside the error state with a pending command. -/
theorem engineStep_pending_cases (s t : State) (q : Pending) (hp : s.pend = some q)
    (hf : s.errf = false) (h : engineStep s = .next t) :
    t = s.rejectCmd .illegal ∨ ∃ i, decode q.word = .ok i ∧ i ≠ .clear ∧ ExecResult s i t := by
  by_cases hd : ∀ i, decode q.word = .ok i → i = .clear
  · rw [engineStep_illegal s q hp hf hd] at h
    cases h
    exact .inl rfl
  · push Not at hd
    obtain ⟨i, hd, hi⟩ := hd
    rw [engineStep_exec s q i hp hf hd hi] at h
    exact .inr ⟨i, hd, hi, exec_result i s t h⟩

/-- R157: the pending bits a write to CMD sets. -/
theorem WriteResult.irqPend_of_cmd {s t : State} {off : BitVec 8} {v : Word}
    (h : WriteResult s off v t) (hcmd : registerAt off = .cmd) :
    t.irqPend = s.irqPend ∨ t.irqPend = s.irqPend ||| 2 ∨ (v = clearWord ∧ t.irqPend = 0) := by
  cases h with
  | clear _ hv => exact .inr (.inr ⟨hv, rfl⟩)
  | busy => exact .inr (.inl rfl)
  | irqPend hr => exact absurd (hcmd.symm.trans hr) nofun
  | ignored | accept | irqEn | din | tagin => exact .inl rfl

/-- Settles O25: the engine step ends the pending command, and a write to CMD has its three results. -/
theorem stepsSetPendingBits : Obligations.StepsSetPendingBits := by
  refine ⟨fun s t q he hp hf h => ?engine, fun s t off w rest hs hcmd h => ?write,
    fun s t he hf h => ?discarded⟩
  case engine =>
    rw [step_of_engineNext s he] at h
    rcases engineStep_pending_cases s.advance t q hp hf h with rfl | ⟨i, hd, hi, hr⟩
    · exact .inr (.inr ⟨rfl, rfl⟩)
    · rcases hr.irqPend hi hf with hdone | ⟨hpend, herrf, rfl, htag⟩ | herr
      · exact .inl hdone
      · rw [s.advance.snapTagin_of_pend q hp] at htag
        exact .inr (.inl ⟨hpend, herrf, hd, htag⟩)
      · exact .inr (.inr herr)
  case write =>
    rw [step_write_block s off w rest hs] at h
    exact (busWrite_result off w s.advance t h).irqPend_of_cmd hcmd
  case discarded =>
    cases ((step_of_engineNext s he).trans (engineStep_error s.advance hf)).symm.trans h
    rfl

/-- R224: when an operation is in progress. -/
theorem State.inOperation_iff (s : State) :
    s.inOperation = true ↔ s.errf = false ∧ (s.absPhase = .ad ∨ s.absPhase = .pt
      ∨ (s.absPhase = .tagrdy ∧ (s.ptp = true ∨ s.ksPhase = .krun))) := by
  simp [State.inOperation, or_assoc]

/-- R224: no key is asked for in the error state. -/
theorem State.keyHeld_of_errf (s : State) (h : s.errf = true) : s.keyHeld :=
  fun hf => absurd (h.symm.trans hf) nofun

/-- R224: no key is asked for before an absorption begins. -/
theorem State.keyHeld_of_idle (s : State) (h : s.absPhase = .idle) : s.keyHeld := by
  simp [State.keyHeld, h]

theorem State.keyHeld_of_keyReady (s : State) (h : s.keyReady = true) : s.keyHeld :=
  fun _ _ => h

/-- R224: a command that begins or goes on with an operation needs the key, and the others leave the phase, PTP and
the key as they are. -/
theorem ExecResult.keyHeld {s t : State} {i : Instr} (hr : ExecResult s i t) (h : s.keyHeld) :
    t.keyHeld := by
  cases hr with
  | rejected => exact State.keyHeld_of_errf _ rfl
  | init _ _ hk => exact State.keyHeld_of_keyReady _ hk
  | abs _ _ _ _ _ hk => exact State.keyHeld_of_keyReady _ hk
  | ksabs _ _ _ _ _ hk => exact State.keyHeld_of_keyReady _ hk
  | verify => simpa [State.keyHeld] using h
  | clear => exact State.keyHeld_of_idle _ rfl
  | kseed | ks => exact h

/-- R224: a change of KEY_READY that is admitted leaves the key to an operation that needs it. -/
theorem State.keyHeld_of_admitted (s : State) (k : Bool) (h : s.keyHeld)
    (ha : k = true ∨ s.keyReady = false ∨ s.pend = none ∧ s.inOperation = false) :
    ({ s with keyReady := k } : State).keyHeld := by
  intro hf hph
  rcases ha with hk | hk | ⟨-, ho⟩
  · exact hk
  · exact absurd (hk.symm.trans (h hf hph)) nofun
  · have hop : s.inOperation = true :=
      s.inOperation_iff.mpr ⟨hf, hph.imp_right (Or.imp_right (And.imp_right .inl))⟩
    exact absurd (ho.symm.trans hop) nofun

/-- R224: every step leaves the key to an operation that needs it. -/
theorem step_keyHeld (s t : State) (h : s.keyHeld) (hstep : step s = .next t) : t.keyHeld := by
  have ha : s.advance.keyHeld := h
  cases step_result s t hstep with
  | illegal => exact State.keyHeld_of_errf _ rfl
  | executed _ _ _ _ _ _ _ _ _ hr => exact hr.keyHeld ha
  | write _ _ _ _ _ hr =>
    cases hr with
    | clear => exact State.keyHeld_of_idle _ rfl
    | busy => exact State.keyHeld_of_errf _ rfl
    | ignored | accept | irqEn | irqPend | din | tagin => exact ha
  | keyReady k _ _ hadm => exact s.advance.keyHeld_of_admitted k ha hadm
  | reset => exact State.keyHeld_of_idle _ rfl
  | engineIdle | discarded | read | elsewhere => exact ha

/-- Settles O60: each change by what the event does in that state, and the key's invariant by the inversion of a
step. -/
theorem keyChangesAdmitted : Obligations.KeyChangesAdmitted := by
  refine ⟨fun s k rest hs h => ?admitted, fun s rest hs hk hp => ?pending,
    fun s rest hs hk hp hf hph => ?inOperation, fun s h => ?between, fun s rest hs => ?changed,
    step_keyHeld⟩
  case admitted =>
    rw [step_of_schedule s _ rest hs]
    exact perform_keyReady_admitted s.advance k h
  case pending =>
    rw [step_of_schedule s _ rest hs]
    exact perform_keyDrop_pending s.advance hk hp
  case inOperation =>
    rw [step_of_schedule s _ rest hs]
    exact perform_keyDrop_inOperation s.advance hk hp (s.inOperation_iff.mpr ⟨hf, hph⟩)
  case between =>
    rw [← Bool.not_eq_true, s.inOperation_iff]
    rintro ⟨hf, hph⟩
    rcases h with herr | hidle | ⟨htag, hptp, hks⟩
    · simp [hf] at herr
    · simp [hidle] at hph
    · simp [htag, hptp, hks] at hph
  case changed =>
    rw [step_of_schedule s _ rest hs]
    rfl

end Sys2Proof.Machine
end

section
/-! The host's sequences, 45_host_protocol.md R172 and R173: encryption and decryption as the golden functions of
R170 and R171, and the stop of R172 where a command is rejected or dropped. -/

namespace Sys2Proof.Machine

/-- R88, `wait`, with nothing pending: the first STATUS ends it. -/
theorem ends_wait_idle {α : Type} (rest : Word → HostProg α) (s : State) (post : State → α → Prop)
    (hp : s.pend = none) (h : ∀ rs, (rest s.status).Ends (s.addResponses rs) post) :
    (HostProg.wait rest).Ends s post := by
  have hidle : s.status.getLsbD 0 = false := by
    rw [status_busy, State.busy, hp]
    rfl
  refine ends_access _ (rd offStatus) s _ post hp rfl nofun (perform_rd offStatus (by decide) s) ?_
  rw [State.lastRead_respond, show busRead (BitVec.ofNat 8 offStatus) s = s.status from rfl,
    HostProg.resume, hidle]
  exact h _

/-- R172: the host stops after a command that is rejected. -/
theorem ends_doCmd_rejected {α : Type} (a : α) (i : Instr) (rest : HostProg α) (c : Cause) (s : State)
    (post : State → α → Prop) (hp : s.pend = none) (he : s.errf = false) (hw : i.wellFormed = true)
    (hi : i ≠ .clear) (hx : exec i (s.acceptCmd (encode i)) = .next (s.rejectCmd c))
    (h : ∀ rs, post ((s.rejectCmd c).addResponses rs) a) :
    (doCmd (some a) i rest).Ends s post :=
  ends_doCmd (some a) i rest s _ post hp he (decode_encode i hw) hi (encode_ne_clearWord i hw hi) hx rfl
    fun rs => ends_ret a _ post rfl (h rs)

/-- R172, R192: in the error state the command is dropped, and the host stops at the first STATUS. -/
theorem ends_doCmd_errorState {α : Type} (a : α) (i : Instr) (rest : HostProg α) (s : State)
    (post : State → α → Prop) (hp : s.pend = none) (he : s.errf = true) (hw : i.wellFormed = true)
    (hi : i ≠ .clear) (h : ∀ rs, post (s.addResponses rs) a) :
    (doCmd (some a) i rest).Ends s post := by
  refine ends_write offCmd _ _ s s post (by decide) hp
    (cmdWrite_error (encode i) s (encode_ne_clearWord i hw hi) he) ?_
  refine ends_wait_idle _ s post hp fun rs => ?_
  rw [status_err, he]
  exact ends_ret a _ post hp (h rs)

/-- R172, R173: `cmd CLEAR`, which ends the program. -/
theorem ends_clear_ret {α : Type} (a : α) (s : State) (post : State → α → Prop) (hp : s.pend = none)
    (h : post s.clearBlock a) : (cmd .clear (.ret a)).Ends s post :=
  ends_clear _ s post hp (ends_ret a _ post rfl h)

/-- R172: what the encryption program does once the tag has been computed. -/
def encryptTail (fill : Block) (pt : List Byte) (t : Block) : HostProg (Option (List Byte × Block)) :=
  if present pt then
    doCmd (some none) (.kseed .tag) <|
    streamSeq (some none) .ks fill pt fun c =>
    cmd .clear <| .ret (some (c, t))
  else cmd .clear <| .ret (some ([], t))

/-- R172: the encryption program up to the tag: from there it goes on with the tag read. -/
theorem ends_encryptSeq (f : Fills) (ad pt : List Byte) (s : State)
    (post : State → Option (List Byte × Block) → Prop) (hs : s.Ready)
    (h : EndsAbsorbed (encryptTail f.stream pt (mac Config.E ad pt))
      (s.initialised (present ad) (present pt)) (mac Config.E ad pt) .tagrdy post) :
    (encryptSeq f ad pt).Ends s post := by
  refine ends_macSeq (some none) f ad pt _ s post hs fun d irq rs => ?_
  refine ends_rdblk_tag _ _ post rfl fun rs' => ?_
  rw [State.tagView_of_tagrdy _ rfl]
  exact h d irq (rs ++ rs')

/-- R172: with an idle keystream the rest of the program computes the ciphertext with the tag as its seed. -/
theorem ends_encryptTail (fill : Block) (pt : List Byte) (tag : Block) (s : State)
    (post : State → Option (List Byte × Block) → Prop) (hs : s.Ready) (hph : s.absPhase = .tagrdy)
    (hks : pt ≠ [] → s.ksPhase ≠ .krun) (hV : s.regV = tag)
    (h : ∀ rs, post { s.clearBlock with responses := rs } (some ((ofb Config.E tag pt).1, tag))) :
    (encryptTail fill pt tag).Ends s post := by
  subst hV
  unfold encryptTail
  by_cases hp : present pt = true
  · have hne := (present_iff pt).mp hp
    rw [if_pos hp]
    refine ends_doCmd_kseed (some none) .tag _ s post hs.pend hs.errf (hks hne) (fun _ => hph)
      fun out d irq rs => ?_
    refine ends_streamSeq (some none) false fill pt _ _ post hne ⟨rfl, hs.errf, hs.keyReady⟩ rfl nofun
      fun out d irq rs => ?_
    exact ends_clear_ret _ _ post rfl (h rs)
  · rw [if_neg hp]
    refine ends_clear_ret _ s post hs.pend ?_
    have hend := h s.responses
    rw [ofb, if_neg hp] at hend
    exact hend

/-- Settles O47: with a key the program computes the tag, and then the ciphertext, or stops at KSEED beside a
running keystream; without a key, and in the error state, it stops at INIT. -/
theorem encryptSequenceEncrypts : Obligations.EncryptSequenceEncrypts := by
  intro f ad pt s hp
  refine ⟨fun hf hk hks => ?encrypts, fun hf hk hne hrun => ?running, fun hf hk => ?noKey,
    fun hf => ?errorState⟩
  case encrypts =>
    refine ends_encryptSeq f ad pt s _ ⟨hp, hf, hk⟩ fun d irq rs => ?_
    refine ends_encryptTail f.stream pt _ _ _ ⟨rfl, hf, hk⟩ rfl hks rfl fun rs' => ⟨?_, rfl⟩
    rw [← encrypt_ciphertext]
    rfl
  case running =>
    refine ends_encryptSeq f ad pt s _ ⟨hp, hf, hk⟩ fun d irq rs => ?_
    rw [encryptTail, if_pos ((present_iff pt).mpr hne)]
    refine ends_doCmd_rejected none (.kseed .tag) _ .sequence _ _ rfl hf rfl nofun ?rejected fun rs' => ?_
    case rejected =>
      refine runCommand_sequence _ _ _ _ _ rfl (Bool.eq_false_iff.mpr fun hlegal => ?_)
      obtain ⟨hks, -⟩ := (State.kseedLegal_iff _ _).mp hlegal
      exact hks hrun
    have hcause : (s.rejectCmd .sequence).cause = .sequence := by rw [State.rejectCmd_cause, hf]; rfl
    exact ⟨rfl, rfl, hcause, rfl, rfl, rfl, rfl, hrun, rfl, rfl, rfl, hk, rfl⟩
  case noKey =>
    refine ends_doCmd_rejected none (.init _ _) _ .noKey s _ hp hf rfl nofun
      (runCommand_noKey _ _ _ _ rfl rfl hk) fun rs => ⟨rfl, ?_⟩
    rw [s.rejectCmd_eq .noKey hf, ← hp]
    rfl
  case errorState => exact ends_doCmd_errorState none (.init _ _) _ s _ hp hf rfl nofun fun rs => ⟨rfl, rfl⟩

/-- R110, R173: INIT and the absorbed associated data, if any. -/
theorem ends_initAndAd {α : Type} (onError : Option α) (fill : Block) (ad : List Byte) (ptp : Bool)
    (rest : HostProg α) (s : State) (post : State → α → Prop) (hs : s.Ready)
    (h : EndsAbsorbed rest (s.initialised (present ad) ptp)
      (absorbPresent Config.E ad (Config.E (dsbBlock (present ad) ptp)))
      (if ptp then .pt else .tagrdy) post) :
    (doCmd onError (.init (present ad) ptp) <|
      absorbIfPresent onError .ad fill ad rest).Ends s post := by
  have hready : (s.initialised (present ad) ptp).Ready := ⟨hs.pend, hs.errf, hs.keyReady⟩
  refine ends_doCmd_init onError _ _ _ s post hs fun d irq rs => ?_
  refine ends_absorbIfPresent onError .ad fill ad _ _ post (hready.absorbed ..)
    (fun hb => if_pos hb) fun d irq rs => ?_
  have hphase := phaseAfterBlock_ad (present ad) ptp
  rw [← hphase] at h
  exact h d irq rs

/-- R173: VERIFY, the read of AUTH and CLEAR: the candidate if the tag is the supplied one. -/
theorem ends_verifySeq (p : List Byte) (s : State) (post : State → Option (List Byte) → Prop)
    (hp : s.pend = none) (hf : s.errf = false) (hph : s.absPhase = .tagrdy)
    (h : ∀ rs, post { s.clearBlock with responses := rs } (if s.regV = s.tagin then some p else none)) :
    (verifySeq p).Ends s post := by
  have hread : ∀ (u : State) (rs : List Response), statusAuth
      (busRead (BitVec.ofNat 8 offStatus) (u.completeCmd.addResponses rs)) = u.auth.code :=
    fun u rs => status_auth (u.completeCmd.addResponses rs)
  refine ends_doCmd_complete none .verify _ s (verifyEffect (s.acceptCmd (encode .verify))) post hp hf rfl
    nofun (exec_verify_complete _ hph) ((verifyEffect_errf _).trans hf) fun rs => ?_
  refine ends_read offStatus _ _ post (by decide) rfl fun rs' => ?_
  rw [hread]
  refine ends_clear_ret _ _ post rfl ?_
  by_cases htag : s.regV = s.tagin
  · rw [verifyEffect_of_eq _ htag]
    rw [if_pos htag] at h
    exact h _
  · rw [verifyEffect_of_ne _ htag]
    rw [if_neg htag] at h
    exact h _

/-- R130: OFB of a present buffer is present. -/
theorem present_ofb (E : Block → Block) (k : Block) (buf : List Byte) :
    present (ofb E k buf).1 = present buf := by
  rw [Bool.eq_iff_iff, present_iff, present_iff, ← List.length_pos_iff, ← List.length_pos_iff,
    length_ofb]

/-- R105, R134: V after the associated data and the recovered plaintext is the tag of both. -/
theorem absorb_ofb_eq_mac (E : Block → Block) (ad ct : List Byte) (k : Block)
    (hc : present ct = true) :
    absorb E (ofb E k ct).1 (absorbPresent E ad (E (dsbBlock (present ad) true)))
      = mac E ad (ofb E k ct).1 := by
  have hp : present (ofb E k ct).1 = true := (present_ofb E k ct).trans hc
  rw [mac, hp, absorbPresent, absorbPresent, if_pos hp]

/-- R171: with a ciphertext, Decrypt compares the tag with V after the recovered plaintext. -/
theorem decrypt_of_present (E : Block → Block) (ad ct : List Byte) (t : Block)
    (hc : present ct = true) :
    decrypt E ad ct t =
      if absorb E (ofb E t ct).1 (absorbPresent E ad (E (dsbBlock (present ad) true))) = t then
        some (ofb E t ct).1
      else none := by
  rw [absorb_ofb_eq_mac E ad ct t hc, ← candidate_eq_ofb]
  rfl

/-- R171: with no ciphertext, Decrypt compares the tag of the associated data alone. -/
theorem decrypt_of_absent (E : Block → Block) (ad : List Byte) (t : Block) :
    decrypt E ad [] t =
      if absorbPresent E ad (E (dsbBlock (present ad) false)) = t then some [] else none := rfl

/-- R173: `stream KSABS` and VERIFY, from a keystream seeded with the supplied tag and the absorbed associated
data. -/
theorem ends_streamVerify (fill : Block) (ad ct : List Byte) (s : State)
    (post : State → Option (List Byte) → Prop) (hs : s.Ready) (hks : s.ksPhase = .krun)
    (hph : s.absPhase = .pt) (hS : s.regS = s.tagin)
    (hV : s.regV = absorbPresent Config.E ad (Config.E (dsbBlock (present ad) true)))
    (hc : present ct = true)
    (h : ∀ rs, post { s.clearBlock with responses := rs } (decrypt Config.E ad ct s.tagin)) :
    (streamSeq none .ksabs fill ct verifySeq).Ends s post := by
  rw [decrypt_of_present Config.E ad ct s.tagin hc] at h
  refine ends_streamSeq none true fill ct verifySeq s post ((present_iff ct).mp hc) hs hks
    (fun _ => hph) ?_
  rw [hS, hV]
  intro out d irq rs
  exact ends_verifySeq _ _ post rfl hs.errf rfl h

/-- Settles O48: KSEED, before or after INIT, seeds the keystream with the supplied tag, and INIT with the associated
data begins the tag; from there both orders go the same way. With no ciphertext there is no keystream. -/
theorem decryptSequenceDecrypts : Obligations.DecryptSequenceDecrypts := by
  intro seedFirst f ad ct tag s hp hf hk hks
  refine ends_ldblk_tagin tag _ s _ hp ?_
  cases hc : present ct with
  | false =>
    have hnil : ct = [] := by simpa [present] using hc
    subst hnil
    refine ends_initAndAd none f.ad ad false _ _ _ ⟨hp, hf, hk⟩ fun d irq rs => ?_
    rw [decrypt_of_absent]
    exact ends_verifySeq [] _ _ rfl hf rfl fun rs' => ⟨rfl, rfl⟩
  | true =>
    have hks' : s.ksPhase ≠ .krun := hks ((present_iff ct).mp hc)
    cases seedFirst with
    | false =>
      refine ends_initAndAd none f.ad ad true _ _ _ ⟨hp, hf, hk⟩ fun d irq rs => ?_
      refine ends_doCmd_kseed none .tagin _ _ _ rfl hf hks' nofun fun out d irq rs => ?_
      exact ends_streamVerify f.stream ad ct _ _ ⟨rfl, hf, hk⟩ rfl rfl rfl rfl hc fun rs' => ⟨rfl, rfl⟩
    | true =>
      refine ends_doCmd_kseed none .tagin _ _ _ hp hf hks' nofun fun out d irq rs => ?_
      refine ends_initAndAd none f.ad ad true _ _ _ ⟨rfl, hf, hk⟩ fun d irq rs => ?_
      exact ends_streamVerify f.stream ad ct _ _ ⟨rfl, hf, hk⟩ rfl rfl rfl rfl hc fun rs' => ⟨rfl, rfl⟩

end Sys2Proof.Machine
end
